-- ==== Sys2Proof/Word.lean ====
section
/-! DEFINITION. The bit vectors of the INKMD5 engine (spec 00_scope.md R9, R10) and two plain
constructions over vectors of a fixed length. -/

namespace Sys2Proof

/-- A 32-bit word: a digest register, a message word, a bus word (R9 `WORD`, `BUSW`). -/
abbrev Word := BitVec 32

/-- One byte of a raw byte string (R14). -/
abbrev Byte := BitVec 8

/-- A character code: an entry of `ALPHA` or `OUT` (R9 `CHARW`). -/
abbrev Code := BitVec 16

/-- A byte offset `0x000 .. 0xFFF` within the register aperture (R60). -/
abbrev Offset := BitVec 12

/-- The vector whose entry `i` is `f i`. -/
def tabulate {α : Type} (n : Nat) (f : Nat → α) : Vector α n :=
  ⟨((List.range n).map f).toArray, by simp⟩

/-- `xs` written over the first entries of `ys`, which keeps its length. -/
def overlayList {α : Type} : List α → List α → List α
  | [], ys => ys
  | _ :: _, [] => []
  | x :: xs, _ :: ys => x :: overlayList xs ys

theorem overlayList_length {α : Type} :
    ∀ (xs ys : List α), (overlayList xs ys).length = ys.length
  | [], _ => rfl
  | _ :: _, [] => rfl
  | _ :: xs, _ :: ys => by simp [overlayList, overlayList_length xs ys]

/-- `overlayList` on a vector. -/
def overlay {α : Type} {n : Nat} (xs : List α) (v : Vector α n) : Vector α n :=
  ⟨(overlayList xs v.toList).toArray, by simp [overlayList_length]⟩

end Sys2Proof
end

