-- ==== Sys2Proof/Syntax.lean ====
section
/-! DEFINITION. The instructions of spec 30_encoding.md R98 (every row of opcode_table.json), and the
bus transactions that carry them (20_memory.md R62). -/

namespace Sys2Proof

/-- The engine's twelve instructions (R90, R98): eleven command words and the data-word write. Operand
fields are bit vectors of exactly the width R94 and R95 give them. -/
inductive Instr where
  /-- R281: no operation. -/
  | nop
  /-- R176: open a plain MD5 context. -/
  | hinit
  /-- R202: open an HMAC computation and start loading the key. -/
  | kinit
  /-- R204: end of key. -/
  | kdone
  /-- R145: push one byte. -/
  | pushb (imm8 : Byte)
  /-- R178: pad and finish. -/
  | final
  /-- R225: encode the digest as hex. -/
  | ehex
  /-- R232: encode the digest as base64. -/
  | eb64
  /-- R240: encode the digest in radix `RADIX`. -/
  | erdx
  /-- R282: clear the fault. -/
  | clrf
  /-- R284: soft reset. -/
  | srst
  /-- R146: push four bytes, by a write to `DIN`. -/
  | dinw (data : Word)
  deriving DecidableEq, Repr

/-- The two write ports an instruction can be written to (R90). -/
inductive Port where
  | cmd
  | din
  deriving DecidableEq, Repr

/-- The sizes a bus transaction can have, 1, 2 or 4 bytes (R62). -/
inductive Size where
  | byte
  | half
  | word
  deriving DecidableEq, Repr

/-- How soon the engine step that completes an accepted operation follows its acceptance (R44, R352:
"a finite, unspecified time", which "may be zero reads long"). notes/assumptions/4.md. -/
inductive Latency where
  /-- The completion follows before any other turn, so no read sees `BUSY = 1`. -/
  | atOnce
  /-- The operation pends until an engine turn. -/
  | later
  deriving DecidableEq, Repr

/-- One turn of one of the two agents (R15): the host reads, writes or asserts reset; the engine
completes the pending operation. -/
inductive Turn where
  /-- `BusRead(off, size)` (R71). -/
  | read (off : Offset) (size : Size)
  /-- `BusWrite(off, size, data)` (R70). -/
  | write (off : Offset) (size : Size) (data : Word) (latency : Latency)
  /-- The reset input is asserted and released (R340). -/
  | reset
  /-- The engine step (R44). -/
  | engine
  deriving DecidableEq, Repr

end Sys2Proof
end

