-- ==== Sys2Proof/WellFormed.lean ====
section
/-! DEFINITION. Which command words are well formed, by the match and mask columns of spec
30_encoding.md R98, independently of the decoder. A term of `Instr` itself needs no check: its operand
fields have exactly the widths of R94 and R95, and every value of them is legal (R95, R100). -/

namespace Sys2Proof

/-- One row of R98: the word selects the row when `word &&& mask = pattern`. -/
structure OpcodeRow where
  pattern : Word
  mask : Word
  deriving DecidableEq, Repr

/-- The eleven rows of R98 for words written to `CMD`, in the table's order. -/
def commandRows : List OpcodeRow :=
  [⟨0x00000000, 0xFFFFFFFF⟩, ⟨0x00000001, 0xFFFFFFFF⟩, ⟨0x00000002, 0xFFFFFFFF⟩,
   ⟨0x00000003, 0xFFFFFFFF⟩, ⟨0x00000004, 0xFFFF00FF⟩, ⟨0x00000005, 0xFFFFFFFF⟩] ++
  [⟨0x00000008, 0xFFFFFFFF⟩, ⟨0x00000009, 0xFFFFFFFF⟩, ⟨0x0000000A, 0xFFFFFFFF⟩,
   ⟨0x0000000E, 0xFFFFFFFF⟩, ⟨0x0000000F, 0xFFFFFFFF⟩]

/-- `w` selects the row. -/
def OpcodeRow.selects (r : OpcodeRow) (w : Word) : Bool := w &&& r.mask == r.pattern

/-- A well-formed command word: a defined opcode with its reserved bits zero (R97, R98, R101). -/
def wellFormedCommand (w : Word) : Bool := commandRows.any fun r => r.selects w

end Sys2Proof
end

