-- ==== Sys2Proof/Decode.lean ====
section
/-! DEFINITION. The decoder of spec 30_encoding.md R96 and the encoder of R93 to R95 and R98. -/

namespace Sys2Proof

/-- Why a command word is illegal (R96, R97, R101). -/
inductive IllegalWord where
  /-- Bits 7:0 hold an opcode R101 reserves. -/
  | undefinedOpcode
  /-- A defined opcode with a reserved bit set (R97). -/
  | reservedBits
  deriving DecidableEq, Repr

/-- Field `opcode`, bits 7:0 (R93, R94). -/
def opcodeField (w : Word) : Byte := w.extractLsb' 0 8

/-- Field `imm8`, bits 15:8 (R94, R100): taken as it is, unsigned and unscaled. -/
def imm8Field (w : Word) : Byte := w.extractLsb' 8 8

/-- The no-operand commands (format C0) by opcode (R98). -/
def plainCommand (op : Byte) : Option Instr :=
  if op = 0x00 then some .nop
  else if op = 0x01 then some .hinit
  else if op = 0x02 then some .kinit
  else if op = 0x03 then some .kdone
  else if op = 0x05 then some .final
  else if op = 0x08 then some .ehex
  else if op = 0x09 then some .eb64
  else if op = 0x0A then some .erdx
  else if op = 0x0E then some .clrf
  else if op = 0x0F then some .srst
  else none

/-- R96: decoding a word written to `CMD`. The 0x0F row is SRST, which R70 step 3 takes out before the
decoding of step 6 is reached. -/
def decodeCmd (w : Word) : Except IllegalWord Instr :=
  if opcodeField w = 0x04 then
    if w.extractLsb' 16 16 = 0 then .ok (.pushb (imm8Field w)) else .error .reservedBits
  else
    match plainCommand (opcodeField w) with
    | some i => if w.extractLsb' 8 24 = 0 then .ok i else .error .reservedBits
    | none => .error .undefinedOpcode

/-- R95: every word written to `DIN` is a data word. -/
def decodeDin (w : Word) : Instr := .dinw w

/-- The instruction in a word written to `p`. -/
def decodeAt : Port → Word → Except IllegalWord Instr
  | .cmd, w => decodeCmd w
  | .din, w => .ok (decodeDin w)

/-- The port an instruction is written to (R90, R98). -/
def portOf : Instr → Port
  | .dinw _ => .din
  | .nop | .hinit | .kinit | .kdone | .pushb _ | .final => .cmd
  | .ehex | .eb64 | .erdx | .clrf | .srst => .cmd

/-- Format C0 (R93): reserved bits zero, opcode in bits 7:0. -/
def formatC0 (op : Byte) : Word := op.setWidth 32

/-- Format C1 (R94): `imm8` in bits 15:8. -/
def formatC1 (op imm8 : Byte) : Word := (imm8.setWidth 32 <<< 8) ||| op.setWidth 32

/-- The word of an instruction (R93, R94, R95, R98). -/
def encode : Instr → Word
  | .nop => formatC0 0x00
  | .hinit => formatC0 0x01
  | .kinit => formatC0 0x02
  | .kdone => formatC0 0x03
  | .pushb b => formatC1 0x04 b
  | .final => formatC0 0x05
  | .ehex => formatC0 0x08
  | .eb64 => formatC0 0x09
  | .erdx => formatC0 0x0A
  | .clrf => formatC0 0x0E
  | .srst => formatC0 0x0F
  | .dinw w => w

/-- The byte offset of a port (R92). -/
def Port.offset : Port → Offset
  | .cmd => 0x000
  | .din => 0x004

/-- Which port a bare opcode-table word is written to. The table's DINW row matches every word, so a word
that is a command is one, and every other word is a data word: notes/assumptions/5.md. -/
def tablePort (w : Word) : Port :=
  match decodeCmd w with
  | .ok _ => .cmd
  | .error _ => .din

/-- The 32-bit bus word of a table word of `nbits` bits, the bits above them zero. -/
def tableWord (nbits w : Nat) : Word := BitVec.ofNat 32 (w % 2 ^ nbits)

/-- The instruction the decoder reads from a bare opcode-table word. -/
def decodeTableWord (nbits w : Nat) : Option Instr :=
  match decodeAt (tablePort (tableWord nbits w)) (tableWord nbits w) with
  | .ok i => some i
  | .error _ => none

end Sys2Proof
end

