-- ==== Sys2Proof/Config.lean ====
section
/-! DEFINITION. What this implementation fixes (spec 00_scope.md R9, 10_state.md R38) and the
values it leaves open (70_reset_and_hazards.md R342, 91_not_in_source.md N21). -/

namespace Sys2Proof.Config

/-- The identification value (R2, R38): "MD5" in ASCII, then version 1. -/
def idValue : Word := 0x4D443501

/-- `LENMAX`: the largest byte count of one hashing context, `2^29 - 1` (R9, R24). -/
def lenMax : Nat := 0x1FFFFFFF

/-- `RADIXMIN` (R9, R240). -/
def radixMin : Nat := 2

/-- `RADIXMAX` (R9, R240). -/
def radixMax : Nat := 256

/-- What entry `i` of `ALPHA` holds after assertion number `n` of the reset input (number 0 is the one
that `State.reset` stands for). The spec says "unknown" and forbids a model to rely on it (R342, U1), so
there is no body: notes/assumptions/1.md. DESIGN CHOICE (the form of the free value), safe. -/
opaque alphaAtReset (n i : Nat) : Code

/-- Word `i` of the digest of a message longer than `lenMax` bytes. R175 gives no digest there, and
91_not_in_source.md N21 says to assume no wrap-around of the length word, so there is no body:
notes/assumptions/11.md. DESIGN CHOICE (the form of the free value), safe. -/
opaque overlongDigestWord (m : List Byte) (i : Nat) : Word

end Sys2Proof.Config
end

