-- ==== Sys2Proof/Machine/State.lean ====
section
/-! DEFINITION. The complete state of one INKMD5 engine (spec 10_state.md R20) beside the model's own
record of the bus, and the state after reset (R47). -/

namespace Sys2Proof.Machine

/-- Four 32-bit registers a, b, c, d: the digest registers `H[0..3]` (R21) or the working registers of a
compression (R170). -/
structure Quad where
  a : Word
  b : Word
  c : Word
  d : Word
  deriving DecidableEq, Repr

/-- The sequencer phase (R27). -/
inductive Phase where
  | idle
  | key
  | msg
  | fault
  deriving DecidableEq, Repr

/-- `MODE` (R28): plain MD5 or HMAC. -/
inductive Mode where
  | plain
  | hmac
  deriving DecidableEq, Repr

/-- What `PEND` can hold beside none (R43): the word written to `CMD` or to `DIN`. -/
inductive Operation where
  | cmd (w : Word)
  | din (w : Word)
  deriving DecidableEq, Repr

/-- The six trap causes (R301). -/
inductive Cause where
  | access
  | busy
  | illop
  | seq
  | lenovf
  | cfgerr
  deriving DecidableEq, Repr

/-- The registers of the aperture (R61, R92). -/
inductive Reg where
  | cmd
  | din
  | status
  | err
  | ecause
  | eaddr
  | edata
  | ien
  | cfg
  | b64pad
  | radix
  | len
  | outlen
  | h (i : Fin 4)
  | alpha (i : Fin 256)
  | out (i : Fin 128)
  | id
  deriving DecidableEq, Repr

/-- The bus response (R62). -/
inductive Resp where
  | okay
  | error
  deriving DecidableEq, Repr

/-- What one transaction returned to the host (R62). -/
inductive Reply where
  | ofRead (data : Word) (resp : Resp)
  | ofWrite (resp : Resp)
  deriving DecidableEq, Repr

/-- The state. The first nineteen fields are the engine of R20 (`BUSY` is `State.busy`, computed from
`pend` as R29 says; `ID` is the constant `Config.idValue`). The last three fields are the model's own. -/
structure State where
  /-- `PHASE` (R27). -/
  phase : Phase
  /-- `MODE` (R28). -/
  mode : Mode
  /-- `DVALID` (R30). -/
  dvalid : Bool
  /-- `PEND` (R43). -/
  pend : Option Operation
  /-- `LEN`, the bytes absorbed by the context (R24). -/
  len : Word
  /-- `ERR`, the sticky trap causes (R33). -/
  err : BitVec 6
  /-- `ECAUSE` (R34). -/
  ecause : BitVec 3
  /-- `EADDR` (R35). -/
  eaddr : Word
  /-- `EDATA` (R35). -/
  edata : Word
  /-- `IEN` (R36): bit 0 `RDY`, bit 1 `ERRIE`. -/
  ien : BitVec 2
  /-- `CFG` (R37): bit 0 `HEXUP`. -/
  cfg : BitVec 1
  /-- `B64PAD` (R39): bit 16 `EN`, bits 15:0 `CHAR`. -/
  b64pad : BitVec 17
  /-- `RADIX` (R40). -/
  radix : Word
  /-- `OUTLEN` (R42). -/
  outlen : BitVec 8
  /-- `BLK[0..15]`, the partly filled message block (R23). -/
  blk : Vector Word 16
  /-- `KEY[0..15]`, the HMAC key block (R25). -/
  key : Vector Word 16
  /-- `ALPHA[0..255]` (R41). -/
  alpha : Vector Code 256
  /-- `OUT[0..127]` (R42). -/
  out : Vector Code 128
  /-- `H[0..3]`, the digest registers (R21). -/
  h : Quad
  /-- The model's own: the turns to come, in order (notes/assumptions/3.md). -/
  agenda : List Turn
  /-- The model's own: what the host's transactions returned, the latest first. -/
  replies : List Reply
  /-- The model's own: how often the reset input has been asserted since `State.reset`; it picks the
  free contents of `ALPHA` (notes/assumptions/1.md). -/
  resets : Nat
  deriving DecidableEq, Repr

/-- Why a step can stop. -/
inductive Fault where
  /-- Raised by the engine step when `PEND` holds a word that is no instruction. The port refuses such a
  word before it pends (R70 step 6), so no run from reset reaches this; the spec gives no effect for it.
  Safe. -/
  | pendingIllegalWord (why : Operation)
  deriving DecidableEq, Repr

/-- Why an instruction can be without a meaning. -/
inductive Refusal where
  /-- Raised by an arm of `exec` whose instruction has no meaning yet; no arm raises it. Safe. -/
  | notModelled (mnemonic : String)
  deriving DecidableEq, Repr

/-- The outcome of a step or of an instruction. -/
abbrev Outcome := Host.Outcome State Fault Refusal

/-- The "Reset value" column of R47. `ALPHA` is unspecified there and free here (R342). -/
def State.reset : State where
  phase := .idle
  mode := .plain
  dvalid := false
  pend := none
  len := 0
  err := 0
  ecause := 0
  eaddr := 0
  edata := 0
  ien := 0
  cfg := 0
  b64pad := 0
  radix := 0
  outlen := 0
  blk := tabulate 16 fun _ => 0
  key := tabulate 16 fun _ => 0
  alpha := tabulate 256 (Config.alphaAtReset 0)
  out := tabulate 128 fun _ => 0
  h := ⟨0, 0, 0, 0⟩
  agenda := []
  replies := []
  resets := 0

end Sys2Proof.Machine
end

