-- ==== Sys2Proof/Machine/Flags.lean ====
section
/-! DEFINITION. The status bits (spec 10_state.md R28 to R35) and the interrupt output (R48). There is
no arithmetic flag (R31). -/

namespace Sys2Proof.Machine

/-- `BUSY` (R29): 1 exactly when `PEND` is not none. -/
def State.busy (s : State) : Bool := s.pend.isSome

/-- The two bits of `PHASE` (R27). -/
def Phase.bits : Phase → BitVec 2
  | .idle => 0
  | .key => 1
  | .msg => 2
  | .fault => 3

/-- The bit of `MODE` (R28). -/
def Mode.bit : Mode → Bool
  | .plain => false
  | .hmac => true

/-- `IEN.RDY` (R36). -/
def State.rdyEnabled (s : State) : Bool := s.ien.getLsbD 0

/-- `IEN.ERRIE` (R36). -/
def State.errEnabled (s : State) : Bool := s.ien.getLsbD 1

/-- `CFG.HEXUP` (R37). -/
def State.hexUp (s : State) : Bool := s.cfg.getLsbD 0

/-- `B64PAD.EN` (R39). -/
def State.padEnabled (s : State) : Bool := s.b64pad.getLsbD 16

/-- `B64PAD.CHAR` (R39). -/
def State.padChar (s : State) : Code := s.b64pad.extractLsb' 0 16

/-- The pad character, if padding is on (R39). -/
def State.pad (s : State) : Option Code := if s.padEnabled then some s.padChar else none

/-- The level of the interrupt output (R48, R310). -/
def State.irq (s : State) : Bool := (s.rdyEnabled && !s.busy) || (s.errEnabled && s.err != 0)

/-- The `STATUS` word (R32): `BUSY` in bit 0, `DVALID` 1, `MODE` 2, `IRQ` 3, `PHASE` 5:4. -/
def State.status (s : State) : Word :=
  (s.phase.bits ++ BitVec.ofBool s.irq ++ BitVec.ofBool s.mode.bit ++
    BitVec.ofBool s.dvalid ++ BitVec.ofBool s.busy).setWidth 32

/-- The code of a cause (R301). -/
def Cause.code : Cause → Nat
  | .access => 1
  | .busy => 2
  | .illop => 3
  | .seq => 4
  | .lenovf => 5
  | .cfgerr => 6

/-- The `ERR` bit of a cause: bit `code - 1` (R33, R301). -/
def Cause.errBit (c : Cause) : BitVec 6 := 1 <<< (c.code - 1)

end Sys2Proof.Machine
end

