-- ==== Sys2Proof/Machine/Operands.lean ====
section
/-! DEFINITION. The operand forms: the bytes of a word in lane order (spec 20_memory.md R72, R73,
30_encoding.md R95), byte positions in a 16-word block (10_state.md R23), the digest as bytes
(20_memory.md R74). -/

namespace Sys2Proof.Machine

/-- Byte `k` of a word, byte 0 the least significant (R10). -/
def byteOf (w : Word) (k : Nat) : Byte := w.extractLsb' (8 * k) 8

/-- The four bytes of a word, least significant first (R73, R95, R142). -/
def wordBytes (w : Word) : List Byte := [byteOf w 0, byteOf w 1, byteOf w 2, byteOf w 3]

/-- Byte `b` placed as byte `k` of an otherwise zero word (R140). -/
def byteAt (b : Byte) (k : Nat) : Word := b.setWidth 32 <<< (8 * k)

/-- `wordsToBytes` (R142). -/
def wordsToBytes (ws : List Word) : List Byte := ws.flatMap wordBytes

/-- `bytesToWords` (R140): little-endian groups of four, the last one zero-padded. -/
def bytesToWords : List Byte → List Word
  | [] => []
  | [b0] => [byteAt b0 0]
  | [b0, b1] => [byteAt b0 0 ||| byteAt b1 1]
  | [b0, b1, b2] => [byteAt b0 0 ||| byteAt b1 1 ||| byteAt b2 2]
  | b0 :: b1 :: b2 :: b3 :: rest =>
    (byteAt b0 0 ||| byteAt b1 1 ||| byteAt b2 2 ||| byteAt b3 3) :: bytesToWords rest

/-- Sixteen zero words. -/
def zeroBlock : Vector Word 16 := tabulate 16 fun _ => 0

/-- The word of a block that byte position `p` lies in (R23). -/
def wordIndex (p : Fin 64) : Fin 16 := ⟨p.val / 4, by omega⟩

/-- Byte `p` of a block (R23). -/
def blockByte (blk : Vector Word 16) (p : Fin 64) : Byte := byteOf (blk.get (wordIndex p)) (p.val % 4)

/-- OR byte `b` into byte position `p` of a block (R140, R144). -/
def orByte (blk : Vector Word 16) (p : Fin 64) (b : Byte) : Vector Word 16 :=
  blk.set (wordIndex p) (blk.get (wordIndex p) ||| byteAt b (p.val % 4))

/-- The sixteen words of a block given as a list, missing ones zero. -/
def blockOfList (ws : List Word) : Vector Word 16 := tabulate 16 fun i => ws.getD i 0

/-- `n mod 64` as a byte position: the fill position of a context of `n` bytes (R24, R141). -/
def position (n : Nat) : Fin 64 := ⟨n % 64, by omega⟩

/-- The four registers in order a, b, c, d (R21). -/
def Quad.toList (q : Quad) : List Word := [q.a, q.b, q.c, q.d]

/-- `H[i]` (R21). -/
def Quad.get (q : Quad) : Fin 4 → Word
  | 0 => q.a
  | 1 => q.b
  | 2 => q.c
  | 3 => q.d

/-- The sixteen digest bytes in order (R74, R221). -/
def Quad.bytes (q : Quad) : List Byte := wordsToBytes q.toList

/-- The bytes an instruction pushes, in order (R145, R146). -/
def pushedBytes : Instr → List Byte
  | .pushb b => [b]
  | .dinw w => wordBytes w
  | .nop | .hinit | .kinit | .kdone | .final | .ehex | .eb64 | .erdx | .clrf | .srst => []

/-- The lanes of a bus write that are driven: the low `size` bytes; the others are captured as 0 (R35,
and vectors T14, T22 of 95_test_vectors.md). notes/assumptions/6.md. DEDUCED. -/
def drivenData : Size → Word → Word
  | .byte, data => data &&& 0x000000FF
  | .half, data => data &&& 0x0000FFFF
  | .word, data => data

end Sys2Proof.Machine
end

