-- ==== Sys2Proof/Machine/Ops.lean ====
section
/-! DEFINITION. The operations every instruction shares: trap entry (spec 60_exceptions.md R306) and the
return from a trap (R308), the two resets (10_state.md R47, R49), the acceptance tests (20_memory.md R70,
30_encoding.md R99) and completion (10_state.md R44). -/

namespace Sys2Proof.Machine

/-- What `EADDR` captures: bit 31 the direction, bits 11:0 the offset (R35, R305). -/
def captureAddr (off : Offset) (isWrite : Bool) : Word :=
  (if isWrite then 0x80000000 else 0) ||| off.setWidth 32

/-- R306: `raise c (off, isWrite, data)`, the trap entry. `OUT` keeps its contents, hidden by
`OUTLEN = 0`. -/
def raise (c : Cause) (off : Offset) (isWrite : Bool) (data : Word) (s : State) : State :=
  { s with
    ecause := if s.err = 0 then BitVec.ofNat 3 c.code else s.ecause
    eaddr := if s.err = 0 then captureAddr off isWrite else s.eaddr
    edata := if s.err = 0 then (if isWrite then data else 0) else s.edata
    err := s.err ||| c.errBit
    pend := none
    phase := .fault
    mode := .plain
    dvalid := false
    outlen := 0
    len := 0
    h := ⟨0, 0, 0, 0⟩
    blk := zeroBlock
    key := zeroBlock }

/-- R308, R282: the return from a trap. It restores nothing that the entry destroyed. -/
def clearFault (s : State) : State :=
  { s with
    err := 0
    ecause := 0
    eaddr := 0
    edata := 0
    phase := if s.phase = .fault then .idle else s.phase }

/-- R284, R49: every piece of state takes its reset value, except that `ALPHA` is unchanged. The turns to
come, the replies and the count of resets are the environment's. -/
def softReset (s : State) : State :=
  { State.reset with alpha := s.alpha, agenda := s.agenda, replies := s.replies, resets := s.resets }

/-- R340, R342: the reset input. Every piece of state takes its reset value; `ALPHA` holds unknown
contents, anew at every assertion (notes/assumptions/1.md). -/
def hardReset (s : State) : State :=
  { State.reset with
    alpha := tabulate 256 (Config.alphaAtReset (s.resets + 1))
    agenda := s.agenda
    replies := s.replies
    resets := s.resets + 1 }

/-- R99: is the instruction legal in the current phase? -/
def legalNow (i : Instr) (s : State) : Bool :=
  match i with
  | .nop | .clrf | .srst => true
  | .hinit | .kinit => s.phase != .fault
  | .kdone => s.phase == .key
  | .pushb _ | .dinw _ => s.phase == .key || s.phase == .msg
  | .final => s.phase == .msg
  | .ehex | .eb64 | .erdx => s.phase == .idle && s.dvalid

/-- R70 steps 6 and 7: would the push make `LEN` exceed `2^29 - 1`? -/
def overflowsLen (i : Instr) (s : State) : Bool :=
  match i with
  | .pushb _ => s.len.toNat + 1 > Config.lenMax
  | .dinw _ => s.len.toNat + 4 > Config.lenMax
  | .nop | .hinit | .kinit | .kdone | .final | .ehex | .eb64 | .erdx | .clrf | .srst => false

/-- R40, R240: is `RADIX` a legal radix? -/
def radixLegal (r : Nat) : Bool := Config.radixMin ≤ r && r ≤ Config.radixMax

/-- R70 step 6: does ERDX find an illegal radix? -/
def refusesRadix (i : Instr) (s : State) : Bool :=
  match i with
  | .erdx => !radixLegal s.radix.toNat
  | .nop | .hinit | .kinit | .kdone | .pushb _ | .final | .ehex | .eb64 | .clrf | .srst | .dinw _ => false

/-- The acceptance tests of R70 steps 3, 4, 6 and 7, in their order (R304): the trap that a write of the
instruction takes, or none if it is accepted. -/
def acceptance (i : Instr) (s : State) : Option Cause :=
  if i = .srst then none
  else if s.busy then some .busy
  else if !legalNow i s then some .seq
  else if overflowsLen i s then some .lenovf
  else if refusesRadix i s then some .cfgerr
  else none

/-- The trap that a write of instruction `i` raises: the offset of its port, its word as the data
(R305). -/
def raiseFor (i : Instr) (c : Cause) (s : State) : State :=
  raise c (portOf i).offset true (encode i) s

/-- What `PEND` holds for an accepted instruction (R43). -/
def operationOf (i : Instr) : Operation :=
  match portOf i with
  | .cmd => .cmd (encode i)
  | .din => .din (encode i)

/-- R70, last lines of steps 6 and 7: `PEND <- ..; BUSY <- 1`. -/
def markPending (i : Instr) (s : State) : State := { s with pend := some (operationOf i) }

/-- R44: the whole effect of the pending operation, and `PEND <- none; BUSY <- 0` in the same change. -/
def retire (effect : State → State) (s : State) : State := { effect s with pend := none }

/-- The host's write of a legal instruction word, alone (R70): the trap, the soft reset, or acceptance. The
engine step that completes an accepted operation comes later. -/
def issue (i : Instr) (s : State) : State :=
  if i = .srst then softReset s
  else
    match acceptance i s with
    | some c => raiseFor i c s
    | none => markPending i s

/-- An instruction from its write to its completion: the acceptance tests, and if they pass the engine
step of R44 with the instruction's own effect. -/
def perform (i : Instr) (effect : State → State) (s : State) : Outcome :=
  match acceptance i s with
  | some c => .next (raiseFor i c s)
  | none => .next (retire effect (markPending i s))

/-- The host sees a reply (R62). -/
def reply (r : Reply) (s : State) : State := { s with replies := r :: s.replies }

end Sys2Proof.Machine
end

