-- ==== Sys2Proof/Machine/Aperture.lean ====
section
/-! DEFINITION. The register aperture (spec 20_memory.md R61 to R67, 30_encoding.md R92): the map, the
access rules, what a register reads as and what a write to a configuration register stores. -/

namespace Sys2Proof.Machine

/-- R92: the registers below `0x400`. -/
def lowReg (n : Nat) : Option Reg :=
  if n = 0x000 then some .cmd
  else if n = 0x004 then some .din
  else if n = 0x008 then some .status
  else if n = 0x00C then some .err
  else if n = 0x010 then some .ecause
  else if n = 0x014 then some .eaddr
  else if n = 0x018 then some .edata
  else if n = 0x01C then some .ien
  else if n = 0x020 then some .cfg
  else if n = 0x024 then some .b64pad
  else if n = 0x028 then some .radix
  else if n = 0x02C then some .len
  else if n = 0x030 then some .outlen
  else if n = 0x040 then some (.h 0)
  else if n = 0x044 then some (.h 1)
  else if n = 0x048 then some (.h 2)
  else if n = 0x04C then some (.h 3)
  else none

/-- R61, R92: the register at an offset; none where the offset is unmapped or not a multiple of 4. -/
def regAt (off : Offset) : Option Reg :=
  let n := off.toNat
  if n % 4 ≠ 0 then none
  else if n < 0x400 then lowReg n
  else if n < 0x800 then some (.alpha (Fin.ofNat 256 ((n - 0x400) / 4)))
  else if n < 0xA00 then some (.out (Fin.ofNat 128 ((n - 0x800) / 4)))
  else if n = 0xFFC then some .id
  else none

/-- R92: the offset of a register. -/
def Reg.offset : Reg → Offset
  | .cmd => 0x000
  | .din => 0x004
  | .status => 0x008
  | .err => 0x00C
  | .ecause => 0x010
  | .eaddr => 0x014
  | .edata => 0x018
  | .ien => 0x01C
  | .cfg => 0x020
  | .b64pad => 0x024
  | .radix => 0x028
  | .len => 0x02C
  | .outlen => 0x030
  | .h i => BitVec.ofNat 12 (0x040 + 4 * i.val)
  | .alpha i => BitVec.ofNat 12 (0x400 + 4 * i.val)
  | .out i => BitVec.ofNat 12 (0x800 + 4 * i.val)
  | .id => 0xFFC

/-- R92: may the register be read? `CMD` and `DIN` are write-only. -/
def Reg.readable : Reg → Bool
  | .cmd | .din => false
  | .status | .err | .ecause | .eaddr | .edata | .ien | .cfg | .b64pad | .radix => true
  | .len | .outlen | .h _ | .alpha _ | .out _ | .id => true

/-- R92: may the register be written? -/
def Reg.writable : Reg → Bool
  | .cmd | .din | .ien | .cfg | .b64pad | .radix | .alpha _ => true
  | .status | .err | .ecause | .eaddr | .edata | .len | .outlen | .h _ | .out _ | .id => false

/-- R67: does the transaction take the ACCESS trap? -/
def accessRefused (off : Offset) (size : Size) (isWrite : Bool) : Bool :=
  size != .word ||
    match regAt off with
    | none => true
    | some r => if isWrite then !r.writable else !r.readable

/-- R71: the current value of a register, zero-extended. An `OUT` entry at or beyond `OUTLEN` reads 0
(R42). The value of the two write-only registers is never asked for (R67). -/
def readReg (s : State) : Reg → Word
  | .cmd => 0
  | .din => 0
  | .status => s.status
  | .err => s.err.setWidth 32
  | .ecause => s.ecause.setWidth 32
  | .eaddr => s.eaddr
  | .edata => s.edata
  | .ien => s.ien.setWidth 32
  | .cfg => s.cfg.setWidth 32
  | .b64pad => s.b64pad.setWidth 32
  | .radix => s.radix
  | .len => s.len
  | .outlen => s.outlen.setWidth 32
  | .h i => s.h.get i
  | .alpha i => (s.alpha.get i).setWidth 32
  | .out i => if i.val < s.outlen.toNat then (s.out.get i).setWidth 32 else 0
  | .id => Config.idValue

/-- R66, R70 step 5: a write to a configuration register stores the bits of its fields and ignores the
rest. No other register is written this way. -/
def writeConfig (r : Reg) (data : Word) (s : State) : State :=
  match r with
  | .ien => { s with ien := data.extractLsb' 0 2 }
  | .cfg => { s with cfg := data.extractLsb' 0 1 }
  | .b64pad => { s with b64pad := data.extractLsb' 0 17 }
  | .radix => { s with radix := data }
  | .alpha i => { s with alpha := s.alpha.set i (data.extractLsb' 0 16) }
  | .cmd | .din | .status | .err | .ecause | .eaddr | .edata => s
  | .len | .outlen | .h _ | .out _ | .id => s

end Sys2Proof.Machine
end

