-- ==== Sys2Proof/Machine/Encoders.lean ====
section
/-! DEFINITION. The output encoders (spec 44_encoders.md): hex, base64 and arbitrary radix; EHEX, EB64,
ERDX. -/

namespace Sys2Proof.Machine

/-- R221, R222: an encoder run overwrites `OUT` from entry 0 and sets `OUTLEN`. -/
def storeOut (codes : List Code) (s : State) : State :=
  { s with out := overlay codes s.out, outlen := BitVec.ofNat 8 codes.length }

/-- R223: the code of hex digit `v`, 0 to 15. -/
def hexDigit (upper : Bool) (v : Nat) : Code :=
  if v < 10 then BitVec.ofNat 16 (0x30 + v)
  else if upper then BitVec.ofNat 16 (0x41 + (v - 10))
  else BitVec.ofNat 16 (0x61 + (v - 10))

/-- R224: the two digits of a byte, high nibble first. -/
def hexByte (upper : Bool) (x : Byte) : List Code :=
  [hexDigit upper (x.toNat / 16), hexDigit upper (x.toNat % 16)]

/-- R224: `toHex`. -/
def toHex (upper : Bool) (bytes : List Byte) : List Code := bytes.flatMap (hexByte upper)

/-- R230: the code of base64 digit `v`, 0 to 63. -/
def b64Digit (v : Nat) : Code :=
  if v < 26 then BitVec.ofNat 16 (0x41 + v)
  else if v < 52 then BitVec.ofNat 16 (0x61 + (v - 26))
  else if v < 62 then BitVec.ofNat 16 (0x30 + (v - 52))
  else if v = 62 then 0x2B
  else 0x2F

/-- The pad character as a string of none or one character (R231, R39). -/
def padString (pad : Option Code) : List Code := pad.toList

/-- R231: character `j` of a group with `n` bytes left, from the group's 24 bits: a pad where the
character starts beyond the input, `6j > 8n`. -/
def b64Char (pad : Option Code) (n trip j : Nat) : List Code :=
  if 6 * j > 8 * n then padString pad
  else [b64Digit (trip / 2 ^ (6 * (3 - j)) % 64)]

/-- R231: the four characters of one group of at most three bytes, missing bytes zero. -/
def b64Group (pad : Option Code) (n : Nat) (x y z : Byte) : List Code :=
  let trip := x.toNat * 65536 + y.toNat * 256 + z.toNat
  b64Char pad n trip 0 ++ b64Char pad n trip 1 ++ b64Char pad n trip 2 ++ b64Char pad n trip 3

/-- R231: `toBase64`. -/
def toBase64 (pad : Option Code) : List Byte → List Code
  | [] => []
  | [x] => b64Group pad 1 x 0 0
  | [x, y] => b64Group pad 2 x y 0
  | x :: y :: z :: rest => b64Group pad 3 x y z ++ toBase64 pad rest

/-- R241: the 16-bit big-endian limbs of a byte sequence of even length. An odd length does not arise
(91_not_in_source.md N13); a last single byte is left out. -/
def limbs : List Byte → List Nat
  | x :: y :: rest => (x.toNat * 256 + y.toNat) :: limbs rest
  | [_] => []
  | [] => []

/-- R242, the inner loop: long division of the limbs by `r` with the running remainder `x`; the quotient
limbs (leading zeros included) and the remainder. -/
def longDivide (r : Nat) : List Nat → Nat → List Nat × Nat
  | [], x => ([], x)
  | d :: ds, x =>
    let t := x * 65536 + d
    let rest := longDivide r ds (t % r)
    (t / r :: rest.1, rest.2)

/-- R242: `n` division steps; the remainders in collection order. Leading zero limbs are dropped. -/
def remainders (r : Nat) : Nat → List Nat → List Nat
  | 0, _ => []
  | n + 1, dividend =>
    let step := longDivide r dividend 0
    step.2 :: remainders r n (step.1.dropWhile (· = 0))

/-- R244 as rows (last radix of the range, `L`), in order. -/
def radixLengthRows : List (Nat × Nat) :=
  [(2, 128), (3, 81), (4, 64), (5, 56), (6, 50), (7, 46), (8, 43), (9, 41), (10, 39), (11, 38), (12, 36),
   (13, 35), (14, 34), (15, 33), (17, 32), (19, 31), (21, 30), (23, 29)] ++
  [(26, 28), (30, 27), (34, 26), (40, 25), (47, 24), (56, 23), (68, 22), (84, 21), (106, 20), (138, 19),
   (184, 18), (255, 17), (256, 16)]

/-- The value of the first row whose range reaches `r`. -/
def lookupLength (r : Nat) : List (Nat × Nat) → Nat
  | [] => 0
  | (top, len) :: rest => if r ≤ top then len else lookupLength r rest

/-- R243, R244: the output length `L(r)`, `2 ≤ r ≤ 256`. -/
def radixLength (r : Nat) : Nat := lookupLength r radixLengthRows

/-- R242, R245: the digits of the digest in radix `r`, most significant first. -/
def radixDigits (r : Nat) (bytes : List Byte) : List Nat :=
  (remainders r (radixLength r) (limbs bytes)).reverse

/-- `ALPHA[n]`, `n ≤ 255` (R41). -/
def alphaAt (alpha : Vector Code 256) (n : Nat) : Code := alpha.get (Fin.ofNat 256 n)

/-- R225: the completion of EHEX. -/
def completeEhex (s : State) : State := storeOut (toHex s.hexUp s.h.bytes) s

/-- R232: the completion of EB64, which is R231 with the sixteen digest bytes. -/
def completeEb64 (s : State) : State := storeOut (toBase64 s.pad s.h.bytes) s

/-- R240, R245: the completion of ERDX. -/
def completeErdx (s : State) : State :=
  storeOut ((radixDigits s.radix.toNat s.h.bytes).map (alphaAt s.alpha)) s

/-- R225: EHEX. -/
def execEhex (s : State) : Outcome := perform .ehex completeEhex s

/-- R232: EB64. -/
def execEb64 (s : State) : Outcome := perform .eb64 completeEb64 s

/-- R240: ERDX. -/
def execErdx (s : State) : Outcome := perform .erdx completeErdx s

end Sys2Proof.Machine
end

