-- ==== Sys2Proof/Machine/Datapath.lean ====
section
/-! DEFINITION. The MD5 block processor (spec 42_md5_core.md R161 to R170): bitwise logic, rotate-and-add
datapath, step table, `compress`. -/

namespace Sys2Proof.Machine

/-- R22: the initial value `IV`. -/
def iv : Quad := ⟨0x67452301, 0xEFCDAB89, 0x98BADCFE, 0x10325476⟩

/-- R11: rotation left by `1 ≤ n ≤ 31`. -/
def rotl (x : Word) (n : Nat) : Word := (x <<< n) ||| (x >>> (32 - n))

/-- The four rounds, named after their functions (R161). -/
inductive Round where
  | ff
  | gg
  | hh
  | ii
  deriving DecidableEq, Repr

/-- R161: the four round functions. -/
def roundFn : Round → Word → Word → Word → Word
  | .ff, b, c, d => (b &&& c) ||| (~~~b &&& d)
  | .gg, b, c, d => (b &&& d) ||| (c &&& ~~~d)
  | .hh, b, c, d => b ^^^ c ^^^ d
  | .ii, b, c, d => c ^^^ (b ||| ~~~d)

/-- One row of R167: round, word index `K`, shift amount `S`, additive constant `T`. -/
structure StepRow where
  round : Round
  k : Fin 16
  s : Nat
  t : Word
  deriving DecidableEq, Repr

/-- Rows 0 to 15 of R167. -/
def roundFF : List StepRow :=
  [⟨.ff, 0, 7, 0xD76AA478⟩, ⟨.ff, 1, 12, 0xE8C7B756⟩, ⟨.ff, 2, 17, 0x242070DB⟩, ⟨.ff, 3, 22, 0xC1BDCEEE⟩,
   ⟨.ff, 4, 7, 0xF57C0FAF⟩, ⟨.ff, 5, 12, 0x4787C62A⟩, ⟨.ff, 6, 17, 0xA8304613⟩, ⟨.ff, 7, 22, 0xFD469501⟩,
   ⟨.ff, 8, 7, 0x698098D8⟩, ⟨.ff, 9, 12, 0x8B44F7AF⟩, ⟨.ff, 10, 17, 0xFFFF5BB1⟩, ⟨.ff, 11, 22, 0x895CD7BE⟩,
   ⟨.ff, 12, 7, 0x6B901122⟩, ⟨.ff, 13, 12, 0xFD987193⟩, ⟨.ff, 14, 17, 0xA679438E⟩, ⟨.ff, 15, 22, 0x49B40821⟩]

/-- Rows 16 to 31 of R167. -/
def roundGG : List StepRow :=
  [⟨.gg, 1, 5, 0xF61E2562⟩, ⟨.gg, 6, 9, 0xC040B340⟩, ⟨.gg, 11, 14, 0x265E5A51⟩, ⟨.gg, 0, 20, 0xE9B6C7AA⟩,
   ⟨.gg, 5, 5, 0xD62F105D⟩, ⟨.gg, 10, 9, 0x02441453⟩, ⟨.gg, 15, 14, 0xD8A1E681⟩, ⟨.gg, 4, 20, 0xE7D3FBC8⟩,
   ⟨.gg, 9, 5, 0x21E1CDE6⟩, ⟨.gg, 14, 9, 0xC33707D6⟩, ⟨.gg, 3, 14, 0xF4D50D87⟩, ⟨.gg, 8, 20, 0x455A14ED⟩,
   ⟨.gg, 13, 5, 0xA9E3E905⟩, ⟨.gg, 2, 9, 0xFCEFA3F8⟩, ⟨.gg, 7, 14, 0x676F02D9⟩, ⟨.gg, 12, 20, 0x8D2A4C8A⟩]

/-- Rows 32 to 47 of R167. -/
def roundHH : List StepRow :=
  [⟨.hh, 5, 4, 0xFFFA3942⟩, ⟨.hh, 8, 11, 0x8771F681⟩, ⟨.hh, 11, 16, 0x6D9D6122⟩, ⟨.hh, 14, 23, 0xFDE5380C⟩,
   ⟨.hh, 1, 4, 0xA4BEEA44⟩, ⟨.hh, 4, 11, 0x4BDECFA9⟩, ⟨.hh, 7, 16, 0xF6BB4B60⟩, ⟨.hh, 10, 23, 0xBEBFBC70⟩,
   ⟨.hh, 13, 4, 0x289B7EC6⟩, ⟨.hh, 0, 11, 0xEAA127FA⟩, ⟨.hh, 3, 16, 0xD4EF3085⟩, ⟨.hh, 6, 23, 0x04881D05⟩,
   ⟨.hh, 9, 4, 0xD9D4D039⟩, ⟨.hh, 12, 11, 0xE6DB99E5⟩, ⟨.hh, 15, 16, 0x1FA27CF8⟩, ⟨.hh, 2, 23, 0xC4AC5665⟩]

/-- Rows 48 to 63 of R167. -/
def roundII : List StepRow :=
  [⟨.ii, 0, 6, 0xF4292244⟩, ⟨.ii, 7, 10, 0x432AFF97⟩, ⟨.ii, 14, 15, 0xAB9423A7⟩, ⟨.ii, 5, 21, 0xFC93A039⟩,
   ⟨.ii, 12, 6, 0x655B59C3⟩, ⟨.ii, 3, 10, 0x8F0CCC92⟩, ⟨.ii, 10, 15, 0xFFEFF47D⟩, ⟨.ii, 1, 21, 0x85845DD1⟩,
   ⟨.ii, 8, 6, 0x6FA87E4F⟩, ⟨.ii, 15, 10, 0xFE2CE6E0⟩, ⟨.ii, 6, 15, 0xA3014314⟩, ⟨.ii, 13, 21, 0x4E0811A1⟩,
   ⟨.ii, 4, 6, 0xF7537E82⟩, ⟨.ii, 11, 10, 0xBD3AF235⟩, ⟨.ii, 2, 15, 0x2AD7D2BB⟩, ⟨.ii, 9, 21, 0xEB86D391⟩]

/-- R167: the 64 steps. -/
def stepTable : List StepRow := roundFF ++ roundGG ++ roundHH ++ roundII

/-- R162: `a' = b + rotl(a + F(b, c, d) + x + k, s)`, every addition modulo 2^32. -/
def combine (r : Round) (q : Quad) (x k : Word) (s : Nat) : Word :=
  q.b + rotl (q.a + roundFn r q.b q.c q.d + x + k) s

/-- One step: combine, then the simultaneous role rotation `(a, b, c, d) <- (d, a', b, c)` (R163). -/
def blockStep (m : Vector Word 16) (q : Quad) (row : StepRow) : Quad :=
  ⟨q.d, combine row.round q (m.get row.k) row.t row.s, q.b, q.c⟩

/-- The register-wise sum modulo 2^32 (R170, last line). -/
def Quad.add (p q : Quad) : Quad := ⟨p.a + q.a, p.b + q.b, p.c + q.c, p.d + q.d⟩

/-- R170: `compress(Hin, M)`. -/
def compress (hin : Quad) (m : Vector Word 16) : Quad :=
  hin.add (stepTable.foldl (blockStep m) hin)

end Sys2Proof.Machine
end

