-- ==== Sys2Proof/Machine/Packer.lean ====
section
/-! DEFINITION. The word packer and the data-input instructions (spec 41_word_packer.md): `absorb`, PUSHB,
DINW. -/

namespace Sys2Proof.Machine

/-- The fill position of the context, `LEN mod 64` (R24). -/
def State.fill (s : State) : Fin 64 := position s.len.toNat

/-- R144, first lines: in phase KEY the first 64 bytes are also kept in `KEY`. -/
def keepKeyByte (b : Byte) (s : State) : Vector Word 16 :=
  if s.phase = .key ∧ s.len.toNat < 64 then orByte s.key (position s.len.toNat) b else s.key

/-- R144: does the next byte complete the block? -/
def State.fillsBlock (s : State) : Bool := (s.len + 1).toNat % 64 = 0

/-- R144: the block with byte `b` ORed in at the fill position. -/
def State.blkWith (s : State) (b : Byte) : Vector Word 16 := orByte s.blk s.fill b

/-- R144: `absorb(b)`. A completed block is compressed and `BLK` cleared. -/
def absorb (b : Byte) (s : State) : State :=
  { s with
    key := keepKeyByte b s
    len := s.len + 1
    h := if s.fillsBlock then compress s.h (s.blkWith b) else s.h
    blk := if s.fillsBlock then zeroBlock else s.blkWith b }

/-- Absorb a list of bytes in order. -/
def absorbAll (bs : List Byte) (s : State) : State := bs.foldl (fun t b => absorb b t) s

/-- R145: the completion of PUSHB. -/
def completePushb (imm8 : Byte) (s : State) : State := absorb imm8 s

/-- R146: the completion of DINW, the four bytes in lane order inside one engine step. -/
def completeDinw (data : Word) (s : State) : State := absorbAll (wordBytes data) s

/-- R145: PUSHB. -/
def execPushb (imm8 : Byte) (s : State) : Outcome := perform (.pushb imm8) (completePushb imm8) s

/-- R146: DINW. -/
def execDinw (data : Word) (s : State) : Outcome := perform (.dinw data) (completeDinw data) s

end Sys2Proof.Machine
end

