-- ==== Sys2Proof/Machine/Md5.lean ====
section
/-! DEFINITION. The padding controller (spec 42_md5_core.md R171 to R177), HINIT, FINAL, the outer half of
an HMAC (43_hmac.md R206), and the whole-message function md5 (R175). -/

namespace Sys2Proof.Machine

/-- R172: the appended "1 bit" as a byte. -/
def padByte : Byte := 0x80

/-- `8·LEN`, low 32 bits (R174). -/
def bitLength (s : State) : Word := BitVec.ofNat 32 (8 * s.len.toNat)

/-- The last block: words 14 and 15 replaced by the length field (R177). -/
def withLength (blk : Vector Word 16) (bits : Word) : Vector Word 16 := (blk.set 14 bits).set 15 0

/-- R177: the digest registers after `finish()`: one final compression, or two when the pad byte leaves no
room for the length. -/
def finishH (s : State) : Quad :=
  let marked := orByte s.blk s.fill padByte
  if s.fill.val ≥ 56 then compress (compress s.h marked) (withLength zeroBlock (bitLength s))
  else compress s.h (withLength marked (bitLength s))

/-- R177: `finish()`. `LEN` is not changed. -/
def finish (s : State) : State := { s with h := finishH s, blk := zeroBlock }

/-- Every word of a key block XORed with a pad word (R200, R204, R206). -/
def xorBlock (key : Vector Word 16) (pad : Word) : Vector Word 16 := key.map (· ^^^ pad)

/-- R204: the ipad word. -/
def ipadWord : Word := 0x36363636

/-- R206: the opad word. -/
def opadWord : Word := 0x5C5C5C5C

/-- R206: the second block of the outer hash: the inner digest, the pad byte after 80 bytes, the bit
length 640. -/
def outerBlock (inner : Quad) : Vector Word 16 :=
  blockOfList (inner.toList ++ [0x00000080, 0, 0, 0, 0, 0, 0, 0, 0, 0, 0x00000280, 0])

/-- R206: the digest registers after `hmac_outer()`, entered with the inner digest. -/
def outerHash (key : Vector Word 16) (inner : Quad) : Quad :=
  compress (compress iv (xorBlock key opadWord)) (outerBlock inner)

/-- R176, R202: what HINIT and KINIT share: a fresh context. -/
def openContext (mode : Mode) (phase : Phase) (s : State) : State :=
  { s with
    h := iv
    blk := zeroBlock
    key := zeroBlock
    len := 0
    mode := mode
    phase := phase
    dvalid := false
    outlen := 0 }

/-- R176: the completion of HINIT. -/
def completeHinit (s : State) : State := openContext .plain .msg s

/-- R178, first lines: pad, and in HMAC mode the outer hash over the inner digest. -/
def finalDigest (s : State) : Quad :=
  match s.mode with
  | .plain => (finish s).h
  | .hmac => outerHash s.key (finish s).h

/-- R178: the completion of FINAL. -/
def completeFinal (s : State) : State :=
  { s with h := finalDigest s, blk := zeroBlock, key := zeroBlock, phase := .idle, dvalid := true }

/-- R176: HINIT. -/
def execHinit (s : State) : Outcome := perform .hinit completeHinit s

/-- R178: FINAL. -/
def execFinal (s : State) : Outcome := perform .final completeFinal s

/-- R175: the padded word sequence of a message of at most `2^29 - 1` bytes, the only ones md5 pads
(notes/assumptions/11.md), so that the low length word `8n` is not cut. -/
def paddedWords (m : List Byte) : List Word :=
  let last := 16 * ((8 * m.length + 64) / 512)
  let w := bytesToWords m
  let zeros := w ++ List.replicate (last + 16 - w.length) 0
  let marked := zeros.modify (m.length / 4) (· ||| byteAt padByte (m.length % 4))
  marked.modify (last + 14) fun _ => BitVec.ofNat 32 (8 * m.length)

/-- Compress `n` blocks of sixteen words in order (R175, the loop). -/
def compressWords : Nat → List Word → Quad → Quad
  | 0, _, h => h
  | n + 1, ws, h => compressWords n (ws.drop 16) (compress h (blockOfList (ws.take 16)))

/-- R175: the padded message, compressed block by block from `IV`. -/
def paddedDigest (m : List Byte) : Quad :=
  compressWords ((paddedWords m).length / 16) (paddedWords m) iv

/-- The digest of a message beyond R175's domain: a free value, the model's choice of form. DESIGN CHOICE,
notes/assumptions/11.md. -/
def overlongDigest (m : List Byte) : Quad :=
  ⟨Config.overlongDigestWord m 0, Config.overlongDigestWord m 1, Config.overlongDigestWord m 2,
    Config.overlongDigestWord m 3⟩

/-- R175: `md5(m)`, the digest words of a whole message of at most `2^29 - 1` bytes. The spec defines no
digest of a longer one: there the value is free (notes/assumptions/11.md). -/
def md5 (m : List Byte) : Quad :=
  if m.length ≤ Config.lenMax then paddedDigest m else overlongDigest m

end Sys2Proof.Machine
end

