-- ==== Sys2Proof/Machine/Hmac.lean ====
section
/-! DEFINITION. The HMAC key scheduler (spec 43_hmac.md): KINIT, KDONE, and the function hmac (R200). -/

namespace Sys2Proof.Machine

/-- R202: the completion of KINIT. -/
def completeKinit (s : State) : State := openContext .hmac .key s

/-- R204, first lines: a key longer than 64 bytes is replaced by its digest. -/
def normalisedKey (s : State) : Vector Word 16 :=
  if s.len.toNat > 64 then blockOfList (finish s).h.toList else s.key

/-- R204: the completion of KDONE: the normalised key, and the ipad block as the start of the inner
hash. -/
def completeKdone (s : State) : State :=
  { s with
    key := normalisedKey s
    h := compress iv (xorBlock (normalisedKey s) ipadWord)
    blk := zeroBlock
    len := 64
    phase := .msg }

/-- R202: KINIT. -/
def execKinit (s : State) : Outcome := perform .kinit completeKinit s

/-- R204: KDONE. -/
def execKdone (s : State) : Outcome := perform .kdone completeKdone s

/-- R200, R201: the key block of a key: hashed down if longer than 16 words, zero-extended to 16. -/
def keyBlock (key : List Byte) : Vector Word 16 :=
  if (bytesToWords key).length > 16 then blockOfList (md5 key).toList
  else blockOfList (bytesToWords key)

/-- R200: `hmac(key, data)`, the digest words. For a key of more than `2^29 - 1` bytes or data of more than
`2^29 - 65` the md5 inside leaves R175's domain, and the result comes from a free value
(notes/assumptions/11.md). -/
def hmac (key data : List Byte) : Quad :=
  let ipad := wordsToBytes (xorBlock (keyBlock key) ipadWord).toList
  let opad := wordsToBytes (xorBlock (keyBlock key) opadWord).toList
  let inner := md5 (ipad ++ data)
  md5 (opad ++ inner.bytes)

end Sys2Proof.Machine
end

