-- ==== Sys2Proof/Machine/System.lean ====
section
/-! DEFINITION. The system commands (spec 46_system_commands.md): NOP, CLRF, SRST. -/

namespace Sys2Proof.Machine

/-- R281: the completion of NOP does nothing. -/
def completeNop (s : State) : State := s

/-- R282: the completion of CLRF. -/
def completeClrf (s : State) : State := clearFault s

/-- R281: NOP. -/
def execNop (s : State) : Outcome := perform .nop completeNop s

/-- R282: CLRF, the return from a trap. -/
def execClrf (s : State) : Outcome := perform .clrf completeClrf s

/-- R284: SRST. It is accepted in every state and takes effect within the write; it never pends. -/
def execSrst (s : State) : Outcome := .next (softReset s)

end Sys2Proof.Machine
end

