-- ==== Sys2Proof/Machine/Dispatch.lean ====
section
/-! DEFINITION. The meaning of every instruction: one arm per constructor of `Instr`. -/

namespace Sys2Proof.Machine

def exec (i : Instr) (s : State) : Host.Outcome State Fault Refusal :=
  match i with
  | .nop => Sys2Proof.Machine.execNop s
  | .hinit => Sys2Proof.Machine.execHinit s
  | .kinit => Sys2Proof.Machine.execKinit s
  | .kdone => Sys2Proof.Machine.execKdone s
  | .pushb imm8 => Sys2Proof.Machine.execPushb imm8 s
  | .final => Sys2Proof.Machine.execFinal s
  | .ehex => Sys2Proof.Machine.execEhex s
  | .eb64 => Sys2Proof.Machine.execEb64 s
  | .erdx => Sys2Proof.Machine.execErdx s
  | .clrf => Sys2Proof.Machine.execClrf s
  | .srst => Sys2Proof.Machine.execSrst s
  | .dinw data => Sys2Proof.Machine.execDinw data s

end Sys2Proof.Machine
end

