-- ==== Sys2Proof/Machine/Engine.lean ====
section
/-! DEFINITION. The engine step (spec 10_state.md R44). -/

namespace Sys2Proof.Machine

/-- The completion of an instruction: the effect its rule gives, without the acceptance tests. SRST never
pends (R284). -/
def completion (i : Instr) : State → State :=
  match i with
  | .nop => completeNop
  | .hinit => completeHinit
  | .kinit => completeKinit
  | .kdone => completeKdone
  | .pushb imm8 => completePushb imm8
  | .final => completeFinal
  | .ehex => completeEhex
  | .eb64 => completeEb64
  | .erdx => completeErdx
  | .clrf => completeClrf
  | .srst => softReset
  | .dinw data => completeDinw data

/-- The instruction a pending operation holds (R43). -/
def pendingInstr : Operation → Except IllegalWord Instr
  | .cmd w => decodeCmd w
  | .din w => .ok (decodeDin w)

/-- R44: when an operation pends, its whole effect and `PEND <- none` as one change; when none pends the
engine has no step, and the state stays as it is (notes/assumptions/3.md). -/
def engineStep (s : State) : Outcome :=
  match s.pend with
  | none => .next s
  | some op =>
    match pendingInstr op with
    | .ok i => .next (retire (completion i) s)
    | .error _ => .fault (.pendingIllegalWord op)

end Sys2Proof.Machine
end

