-- ==== Sys2Proof/Machine/Bus.lean ====
section
/-! DEFINITION. The two bus transactions (spec 20_memory.md R70, R71). -/

namespace Sys2Proof.Machine

/-- Record the reply of a transaction beside its outcome. -/
def withReply (r : Reply) : Outcome → Outcome
  | .next s => .next (reply r s)
  | .fault f => .fault f
  | .refused f => .refused f

/-- The write of a legal instruction word: it runs to its completion at once, or it is only accepted and
completed by a later engine turn (R352; notes/assumptions/4.md). -/
def deliver (i : Instr) : Latency → State → Outcome
  | .atOnce, s => exec i s
  | .later, s => .next (issue i s)

/-- R70 steps 3, 4 and 6 for a word that is no command: BUSY comes before ILLOP (R304). -/
def refuseWord (data : Word) (s : State) : State :=
  raise (if s.busy then .busy else .illop) Port.cmd.offset true data s

/-- R70 step 6: a write to `CMD`. -/
def writeCmd (data : Word) (lat : Latency) (s : State) : Outcome :=
  match decodeCmd data with
  | .ok i => deliver i lat s
  | .error _ => .next (refuseWord data s)

/-- R70 steps 4 and 5: a write to a configuration register. -/
def writeConfigReg (r : Reg) (off : Offset) (data : Word) (s : State) : State :=
  if s.busy then raise .busy off true data s else writeConfig r data s

/-- R70 steps 3 to 7: a write that the aperture does not refuse. -/
def writeReg (r : Reg) (off : Offset) (data : Word) (lat : Latency) (s : State) : Outcome :=
  match r with
  | .cmd => writeCmd data lat s
  | .din => deliver (decodeDin data) lat s
  | .ien | .cfg | .b64pad | .radix | .alpha _ => .next (writeConfigReg r off data s)
  | .status | .err | .ecause | .eaddr | .edata => .next s
  | .len | .outlen | .h _ | .out _ | .id => .next s

/-- R70 steps 1 and 2: the ACCESS trap, with the lanes the transaction drives as its data (R35). -/
def refuseWrite (off : Offset) (size : Size) (data : Word) (s : State) : State :=
  raise .access off true (drivenData size data) s

/-- R70: `BusWrite(off, size, data)`. -/
def busWrite (off : Offset) (size : Size) (data : Word) (lat : Latency) (s : State) : Outcome :=
  if accessRefused off size true then
    withReply (.ofWrite .error) (.next (refuseWrite off size data s))
  else
    match regAt off with
    | some r => withReply (.ofWrite .okay) (writeReg r off data lat s)
    | none => withReply (.ofWrite .error) (.next (refuseWrite off size data s))

/-- What a legal read of an offset returns (R71). -/
def readAt (s : State) (off : Offset) : Word :=
  match regAt off with
  | some r => readReg s r
  | none => 0

/-- R71: `BusRead(off, size)`. -/
def busRead (off : Offset) (size : Size) (s : State) : State :=
  if accessRefused off size false then
    reply (.ofRead 0 .error) (raise .access off false 0 s)
  else reply (.ofRead (readAt s off) .okay) s

end Sys2Proof.Machine
end

