-- ==== Sys2Proof/Machine/Step.lean ====
section
/-! DEFINITION. One step: the next turn of the agenda (spec 00_scope.md R15). -/

namespace Sys2Proof.Machine

/-- The turn at the head of the agenda. -/
def takeTurn (t : Turn) (s : State) : Outcome :=
  match t with
  | .read off size => .next (busRead off size s)
  | .write off size data lat => busWrite off size data lat s
  | .reset => .next (hardReset s)
  | .engine => engineStep s

/-- One step of the machine: the next turn of the agenda; when the host has no transaction left, the
engine's (R44, R352: a pending operation is always completed in the end). -/
def step (s : State) : Host.Outcome State Fault Refusal :=
  match s.agenda with
  | [] => engineStep s
  | t :: rest => takeTurn t { s with agenda := rest }

/-- The host's write of an opcode-table word, completed at once. -/
def fetchTurn (nbits w : Nat) : Turn :=
  .write (tablePort (tableWord nbits w)).offset .word (tableWord nbits w) .atOnce

/-- `s` with the host's next transaction the write of that instruction: notes/assumptions/5.md. -/
def State.withFetchWord (s : State) (nbits w : Nat) : State :=
  { s with agenda := fetchTurn nbits w :: s.agenda }

end Sys2Proof.Machine
end

