-- ==== Sys2Proof/Machine/Codec.lean ====
section
/-! DEFINITION. The byte-string codec of the host (spec 40_byte_string_codec.md). It is no part of the
engine: it turns text into the bytes a host program pushes (R120). -/

namespace Sys2Proof.Machine

/-- The errors of the host's functions (R302, D0's taxonomy). -/
inductive HostError where
  /-- A required argument is empty (R265). -/
  | invalidArgument
  /-- The alphabet's length is no legal radix (R266). -/
  | invalidConfiguration
  /-- A code point beyond the four-byte ceiling; unreachable from 16-bit units (R126). -/
  | unsupportedInput
  deriving DecidableEq, Repr

/-- R122: one UTF-8 continuation byte, from the six bits of `x` above bit `k`. -/
def contByte (x k : Nat) : Byte := BitVec.ofNat 8 (0x80 + x / 2 ^ k % 64)

/-- R122, R126: the bytes of a code point. -/
def encodePoint (x : Nat) : Except HostError (List Byte) :=
  if x ≤ 0x7F then .ok [BitVec.ofNat 8 x]
  else if x ≤ 0x7FF then .ok [BitVec.ofNat 8 (0xC0 + x / 2 ^ 6), contByte x 0]
  else if x ≤ 0xFFFF then .ok [BitVec.ofNat 8 (0xE0 + x / 2 ^ 12), contByte x 6, contByte x 0]
  else if x ≤ 0x1FFFFF then
    .ok [BitVec.ofNat 8 (0xF0 + x / 2 ^ 18), contByte x 12, contByte x 6, contByte x 0]
  else .error .unsupportedInput

/-- R123: is the unit a lead surrogate? -/
def isLead (u : Code) : Bool := 0xD800 ≤ u.toNat && u.toNat ≤ 0xDBFF

/-- R123: is the unit a trail surrogate? -/
def isTrail (u : Code) : Bool := 0xDC00 ≤ u.toNat && u.toNat ≤ 0xDFFF

/-- R123: the code point of a surrogate pair. -/
def pairPoint (lead trail : Code) : Nat :=
  0x10000 + lead.toNat % 0x400 * 0x400 + trail.toNat % 0x400

/-- The code points of a text: surrogate pairs are combined, a lone surrogate stands for itself (R122,
R124). -/
def codePoints : List Code → List Nat
  | [] => []
  | [x] => [x.toNat]
  | x :: y :: rest =>
    if isLead x && isTrail y then pairPoint x y :: codePoints rest
    else x.toNat :: codePoints (y :: rest)

/-- The bytes of a list of code points, or the first error. -/
def encodePoints : List Nat → Except HostError (List Byte)
  | [] => .ok []
  | x :: xs =>
    match encodePoint x, encodePoints xs with
    | .ok bs, .ok rest => .ok (bs ++ rest)
    | .error e, _ => .error e
    | .ok _, .error e => .error e

/-- R122: `textToUtf8Bytes`. -/
def textToUtf8Bytes (text : List Code) : Except HostError (List Byte) := encodePoints (codePoints text)

/-- The low byte of a 16-bit unit. -/
def lowByte (u : Code) : Byte := u.extractLsb' 0 8

/-- The high byte of a 16-bit unit. -/
def highByte (u : Code) : Byte := u.extractLsb' 8 8

/-- R127: `textToUtf16LE`. -/
def textToUtf16LE (text : List Code) : List Byte := text.flatMap fun u => [lowByte u, highByte u]

/-- R127: `textToUtf16BE`. -/
def textToUtf16BE (text : List Code) : List Byte := text.flatMap fun u => [highByte u, lowByte u]

end Sys2Proof.Machine
end

