-- ==== Sys2Proof/Machine/Api.lean ====
section
/-! DEFINITION. The public hashing API of the host (spec 45_public_api.md): compositions of the codec, the
digest functions and the encoders. It is no part of the engine. -/

namespace Sys2Proof.Machine

/-- The two formatting switches, which the engine holds in `CFG` and `B64PAD` (R267). -/
structure Format where
  upper : Bool
  pad : Option Code
  deriving DecidableEq, Repr

/-- The raw digest of a text (R261); of a text of more than `2^29 - 1` bytes it is a free value
(notes/assumptions/11.md). -/
def digestOfText (text : List Code) : Except HostError Quad := (textToUtf8Bytes text).map md5

/-- The raw HMAC of two texts (R262); free beyond the lengths of R207 (notes/assumptions/11.md). -/
def hmacOfText (key data : List Code) : Except HostError Quad :=
  match textToUtf8Bytes key, textToUtf8Bytes data with
  | .ok k, .ok d => .ok (hmac k d)
  | .error e, _ => .error e
  | .ok _, .error e => .error e

/-- R245, R266: a digest in the radix that is the alphabet's length. An empty alphabet is
InvalidConfiguration; so is any other length ERDX refuses (notes/assumptions/8.md). -/
def toRadix (alphabet : List Code) (digest : Quad) : Except HostError (List Code) :=
  if radixLegal alphabet.length then
    .ok ((radixDigits alphabet.length digest.bytes).map fun n => alphabet.getD n 0)
  else .error .invalidConfiguration

/-- R261: `hex(text)`. -/
def apiHex (f : Format) (text : List Code) : Except HostError (List Code) :=
  (digestOfText text).map fun q => toHex f.upper q.bytes

/-- R261: `b64(text)`. -/
def apiB64 (f : Format) (text : List Code) : Except HostError (List Code) :=
  (digestOfText text).map fun q => toBase64 f.pad q.bytes

/-- R261: `any(text, alphabet)`. -/
def apiAny (alphabet text : List Code) : Except HostError (List Code) :=
  (digestOfText text).bind (toRadix alphabet)

/-- R262: `hmacHex(key, data)`. -/
def apiHmacHex (f : Format) (key data : List Code) : Except HostError (List Code) :=
  (hmacOfText key data).map fun q => toHex f.upper q.bytes

/-- R262: `hmacB64(key, data)`. -/
def apiHmacB64 (f : Format) (key data : List Code) : Except HostError (List Code) :=
  (hmacOfText key data).map fun q => toBase64 f.pad q.bytes

/-- R262: `hmac(key, data, alphabet)`. -/
def apiHmacAny (alphabet key data : List Code) : Except HostError (List Code) :=
  (hmacOfText key data).bind (toRadix alphabet)

/-- R264, R265: `hash(plaintext)`. -/
def apiHash (f : Format) (plaintext : List Code) : Except HostError (List Code) :=
  if plaintext.isEmpty then .error .invalidArgument else apiHex f plaintext

/-- R264, R265: `saltHash(plaintext, salt)`, the plaintext as the key. -/
def apiSaltHash (f : Format) (plaintext salt : List Code) : Except HostError (List Code) :=
  if plaintext.isEmpty || salt.isEmpty then .error .invalidArgument else apiHmacHex f plaintext salt

/-- R263, R265: `fullHash(plaintext, salt, challenge)`: the hex string of the inner call is the key of the
outer one. -/
def apiFullHash (f : Format) (plaintext salt challenge : List Code) : Except HostError (List Code) :=
  if plaintext.isEmpty || salt.isEmpty || challenge.isEmpty then .error .invalidArgument
  else (apiHmacHex f plaintext salt).bind fun inner => apiHmacHex f inner challenge

end Sys2Proof.Machine
end

