-- ==== Sys2Proof/Machine/HostProgram.lean ====
section
/-! DEFINITION. Host programs: the notation of spec 30_encoding.md R103, the pseudo-instructions of R104,
and the command sequences of 45_public_api.md R261, R262, as turns of the agenda. -/

namespace Sys2Proof.Machine

/-- An instruction and how often the `WAIT` after it reads `BUSY = 1`. -/
abbrev Timed := Instr × Nat

/-- `RD reg` (R103). -/
def rd (r : Reg) : Turn := .read r.offset .word

/-- `WR reg, value` (R103). -/
def wr (r : Reg) (value : Word) : Turn := .write r.offset .word value .later

/-- An instruction by its mnemonic (R103): its word written to its port. -/
def writeInstr (i : Instr) : Turn := .write (portOf i).offset .word (encode i) .later

/-- `WAIT` (R104): `polls` reads of `STATUS` before the engine step, the engine step, and the read that sees
`BUSY = 0`. The count is the WAIT's own; after a trap or SRST all of the reads see `BUSY = 0`
(notes/assumptions/14.md). -/
def waitTurns (polls : Nat) : List Turn := List.replicate polls (rd .status) ++ [.engine, rd .status]

/-- An instruction and its `WAIT`. -/
def timedTurns (p : Timed) : List Turn := writeInstr p.1 :: waitTurns p.2

/-- A program of instructions, a `WAIT` after each. -/
def programTurns (ps : List Timed) : List Turn := ps.flatMap timedTurns

/-- Instructions with their WAIT counts: instruction number `k` of the program, counted from `n`, gets
`polls k`. Each WAIT may read `BUSY = 1` another number of times (R352, U2), so programs are stated for every
`polls`; that the turns name the counts beforehand, also where an instruction traps, is the model's form
(notes/assumptions/14.md). -/
def timed (polls : Nat → Nat) (n : Nat) : List Instr → List Timed
  | [] => []
  | i :: is => (i, polls n) :: timed polls (n + 1) is

/-- `PUSHX` (R104); the WAIT after byte `k` reads `BUSY = 1` `polls k` times (notes/assumptions/14.md). -/
def pushX (bytes : List Byte) (polls : Nat → Nat) : List Turn :=
  programTurns (timed polls 0 (bytes.map Instr.pushb))

/-- `PUSHS` (R104), of a text that has UTF-8 bytes. -/
def pushS (text : List Code) (polls : Nat → Nat) : Except HostError (List Turn) :=
  (textToUtf8Bytes text).map fun bytes => pushX bytes polls

/-- `PUSHW b0 b1 b2 b3` (R104). -/
def pushW (b0 b1 b2 b3 : Byte) (polls : Nat) : List Turn :=
  timedTurns (.dinw (byteAt b0 0 ||| byteAt b1 1 ||| byteAt b2 2 ||| byteAt b3 3), polls)

/-- The `WR ALPHA[i]` writes of `SETALPHA`, from entry `n` on; `setAlpha` asks for entries up to 255 only. -/
def alphaTurns (n : Nat) : List Code → List Turn
  | [] => []
  | c :: rest => wr (.alpha (Fin.ofNat 256 n)) (c.setWidth 32) :: alphaTurns (n + 1) rest

/-- `SETALPHA` (R104). There is no `ALPHA[256]` and the spec does not say what the pseudo-instruction is for
more than 256 characters: here the host refuses them, as R266 lets it. DESIGN CHOICE,
notes/assumptions/12.md. -/
def setAlpha (chars : List Code) : Except HostError (List Turn) :=
  if chars.length ≤ Config.radixMax then
    .ok (wr .radix (BitVec.ofNat 32 chars.length) :: alphaTurns 0 chars)
  else .error .invalidConfiguration

/-- `RDOUT` (R104), where `RD OUTLEN` returns `n`. -/
def rdOut (n : Nat) : List Turn :=
  rd .outlen :: (List.range n).map fun i => rd (.out (Fin.ofNat 128 i))

/-- `RDDIGEST` (R104). -/
def rdDigest : List Turn := [rd (.h 0), rd (.h 1), rd (.h 2), rd (.h 3)]

/-- What `RD OUTLEN` returns after EB64 (R232). -/
def eb64Outlen (padded : Bool) : Nat := if padded then 24 else 22

/-- What `RD OUTLEN` returns after ERDX: `L(RADIX)`, or 0 after the CFGERR trap of an illegal radix (R240,
R245, R306). -/
def erdxOutlen (radix : Nat) : Nat := if radixLegal radix then radixLength radix else 0

/-- `HINIT`, `PUSHS text`, `FINAL` of R261 as instructions. -/
def digestInstrs (bytes : List Byte) : List Instr := .hinit :: bytes.map Instr.pushb ++ [.final]

/-- `KINIT`, `PUSHS key`, `KDONE`, `PUSHS data`, `FINAL` of R262 as instructions. -/
def hmacInstrs (key data : List Byte) : List Instr :=
  .kinit :: key.map Instr.pushb ++ .kdone :: data.map Instr.pushb ++ [.final]

/-- `HINIT`, `PUSHS text`, `FINAL` with their WAITs: the part that leaves the raw digest in `H` (R261;
notes/assumptions/14.md). -/
def digestProgram (text : List Code) (polls : Nat → Nat) : Except HostError (List Turn) :=
  (textToUtf8Bytes text).map fun bytes => programTurns (timed polls 0 (digestInstrs bytes))

/-- Instructions with their WAITs, the configuration writes `set`, the encoder with its WAIT, and `RDOUT`,
where `RD OUTLEN` returns `n` (R261, R262; notes/assumptions/13.md, 14.md). -/
def encodedProgram (polls : Nat → Nat) (is : List Instr) (set : List Turn) (encoder : Instr) (n : Nat) :
    List Turn :=
  programTurns (timed polls 0 is) ++ set ++ timedTurns (encoder, polls is.length) ++ rdOut n

/-- R261: the program of `hex(text)`. -/
def hexProgram (text : List Code) (polls : Nat → Nat) : Except HostError (List Turn) :=
  (textToUtf8Bytes text).map fun bytes => encodedProgram polls (digestInstrs bytes) [] .ehex 32

/-- R261: the program of `b64(text)`, with `B64PAD.EN` as the host has set it. -/
def b64Program (padded : Bool) (text : List Code) (polls : Nat → Nat) : Except HostError (List Turn) :=
  (textToUtf8Bytes text).map fun bytes =>
    encodedProgram polls (digestInstrs bytes) [] .eb64 (eb64Outlen padded)

/-- R261: the program of `any(text, alphabet)`, `SETALPHA` first. -/
def anyProgram (alphabet text : List Code) (polls : Nat → Nat) : Except HostError (List Turn) :=
  (setAlpha alphabet).bind fun set => (textToUtf8Bytes text).map fun bytes =>
    set ++ encodedProgram polls (digestInstrs bytes) [] .erdx (erdxOutlen alphabet.length)

/-- The key and the data of an HMAC as bytes (R262). -/
def hmacBytes (key data : List Code) : Except HostError (List Byte × List Byte) :=
  (textToUtf8Bytes key).bind fun k => (textToUtf8Bytes data).map fun d => (k, d)

/-- `KINIT`, `PUSHS key`, `KDONE`, `PUSHS data`, `FINAL` with their WAITs: the part that leaves the raw HMAC
in `H` (R262; notes/assumptions/14.md). -/
def hmacProgram (key data : List Code) (polls : Nat → Nat) : Except HostError (List Turn) :=
  (hmacBytes key data).map fun p => programTurns (timed polls 0 (hmacInstrs p.1 p.2))

/-- R262: the program of `hmacHex(key, data)`. -/
def hmacHexProgram (key data : List Code) (polls : Nat → Nat) : Except HostError (List Turn) :=
  (hmacBytes key data).map fun p => encodedProgram polls (hmacInstrs p.1 p.2) [] .ehex 32

/-- R262: the program of `hmacB64(key, data)`. -/
def hmacB64Program (padded : Bool) (key data : List Code) (polls : Nat → Nat) :
    Except HostError (List Turn) :=
  (hmacBytes key data).map fun p =>
    encodedProgram polls (hmacInstrs p.1 p.2) [] .eb64 (eb64Outlen padded)

/-- R262: the program of `hmac(key, data, alphabet)`, `SETALPHA` after `FINAL`. -/
def hmacAnyProgram (alphabet key data : List Code) (polls : Nat → Nat) : Except HostError (List Turn) :=
  (hmacBytes key data).bind fun p => (setAlpha alphabet).map fun set =>
    encodedProgram polls (hmacInstrs p.1 p.2) set .erdx (erdxOutlen alphabet.length)

/-- The instructions of a list, executed in order. -/
def execAll : List Instr → State → Outcome
  | [], s => .next s
  | i :: is, s =>
    match exec i s with
    | .next t => execAll is t
    | .fault f => .fault f
    | .refused f => .refused f

/-- `n` steps of the machine. -/
def steps (n : Nat) (s : State) : Outcome :=
  match n with
  | 0 => .next s
  | n + 1 =>
    match step s with
    | .next t => steps n t
    | .fault f => .fault f
    | .refused f => .refused f

end Sys2Proof.Machine
end

