-- ==== Sys2Proof/Safety.lean ====
section
/-! DEFINITION. What holds between steps (spec 10_state.md R46 and the ranges of R20, R34, R35) and what
counts as a successful end of a run (70_reset_and_hazards.md R355). -/

namespace Sys2Proof.Machine

/-- An accepted operation: it holds an instruction, not SRST, that passes the acceptance tests once the
operation itself is left out (R70, R303). -/
def State.pendingAccepted (s : State) (op : Operation) : Prop :=
  ∃ i, pendingInstr op = .ok i ∧ i ≠ .srst ∧ acceptance i { s with pend := none } = none

/-- The invariant. The field names give the clause of R46; the last five clauses are other rules'. -/
structure State.Inv (s : State) : Prop where
  /-- (i) -/
  err_iff_fault : s.err ≠ 0 ↔ s.phase = .fault
  /-- (ii); `BUSY` is `pend.isSome` by definition. -/
  pend_in_fault : s.phase = .fault → ∀ op, s.pend = some op → op = operationOf .nop ∨ op = operationOf .clrf
  /-- (iii) -/
  dvalid_idle : s.dvalid = true → s.phase = .idle
  /-- (iv) -/
  outlen_dvalid : s.outlen ≠ 0 → s.dvalid = true
  /-- (v) -/
  len_range : s.len.toNat ≤ Config.lenMax
  /-- (vi) -/
  block_tail_zero : s.phase = .key ∨ s.phase = .msg →
    ∀ p : Fin 64, s.len.toNat % 64 ≤ p.val → blockByte s.blk p = 0
  /-- (vii) -/
  capture_zero : s.err = 0 → s.ecause = 0 ∧ s.eaddr = 0 ∧ s.edata = 0
  /-- (viii) -/
  key_is_hmac : s.phase = .key → s.mode = .hmac
  /-- R303, R44: what pends has passed its tests. -/
  pend_accepted : ∀ op, s.pend = some op → s.pendingAccepted op
  /-- R42: the range of `OUTLEN`. -/
  outlen_range : s.outlen.toNat ≤ 128
  /-- R34: while `ERR` is not zero `ECAUSE` holds the code of a cause whose `ERR` bit is set. -/
  cause_recorded : s.err ≠ 0 → ∃ c : Cause, s.ecause = BitVec.ofNat 3 c.code ∧ s.err &&& c.errBit ≠ 0
  /-- R35: bits 30:12 of `EADDR` are 0. -/
  eaddr_form : s.eaddr.extractLsb' 12 19 = 0
  /-- R176, R178, R306, R47: outside an open context no message or key bytes are kept. -/
  closed_cleared : s.phase = .idle ∨ s.phase = .fault → s.blk = zeroBlock ∧ s.key = zeroBlock

/-- R355: the run ended well, and a digest that was asked for is there. -/
def State.digestReady (s : State) : Bool := s.err == 0 && !s.busy && s.dvalid

/-- R355: an encoding that was asked for is there. -/
def State.outputReady (s : State) : Bool := s.digestReady && s.outlen != 0

/-- R355: the exit code of a failed run. -/
def State.exitCode (s : State) : Nat := s.ecause.toNat

end Sys2Proof.Machine
end

