-- ==== Sys2Proof/Certificates/Slice0/Obligations.lean ====
section
/-! DEFINITION. The statements for the provers, from the numbered rules of spec/. Helpers first: the
offset ranges of R61 and the table of R99, written here from those rules and not from the model's own
functions. Where a statement speaks of `agenda` and `replies`, these are the model's form of the host's
transactions (notes/assumptions/3.md, 10.md), and `Latency` is its form of the open latency
(notes/assumptions/4.md). -/

open Sys2Proof Sys2Proof.Machine

namespace Sys2Proof.Claims

/-- R61: offsets of registers that may be read. -/
def readableOffset (n : Nat) : Prop :=
  n % 4 = 0 ∧ (8 ≤ n ∧ n ≤ 0x30 ∨ 0x40 ≤ n ∧ n ≤ 0x4C ∨ 0x400 ≤ n ∧ n ≤ 0x9FC ∨ n = 0xFFC)

/-- R61: offsets of registers that may be written. -/
def writableOffset (n : Nat) : Prop :=
  n % 4 = 0 ∧ (n ≤ 4 ∨ 0x1C ≤ n ∧ n ≤ 0x28 ∨ 0x400 ≤ n ∧ n ≤ 0x7FC)

/-- R99: the legality table, row by row; SRST is legal everywhere. -/
def legalIn (p : Phase) (dvalid : Bool) : Instr → Prop
  | .nop | .clrf | .srst => True
  | .hinit | .kinit => p = .idle ∨ p = .key ∨ p = .msg
  | .kdone => p = .key
  | .pushb _ | .dinw _ => p = .key ∨ p = .msg
  | .final => p = .msg
  | .ehex | .eb64 | .erdx => p = .idle ∧ dvalid = true

/-- The number of bytes an instruction pushes (R145, R146). -/
def pushCount : Instr → Nat
  | .pushb _ => 1
  | .dinw _ => 4
  | .nop | .hinit | .kinit | .kdone | .final | .ehex | .eb64 | .erdx | .clrf | .srst => 0

/-- PUSHB or DINW. -/
def isPush (i : Instr) : Prop := (∃ b, i = .pushb b) ∨ ∃ w, i = .dinw w

/-- Digest byte `k` (R74). -/
def dg (q : Quad) (k : Nat) : Nat := ((q.bytes.getD k 0)).toNat

/-- R241: the digest as a big-endian integer. -/
def digestNumber (q : Quad) : Nat := q.bytes.foldl (fun n x => n * 256 + x.toNat) 0

/-- The visible output string (R42). -/
def outputOf (s : State) : List Code := s.out.toList.take s.outlen.toNat

/-- R230: the 64 base64 characters by their codes. -/
def b64Codes : List Code :=
  (List.range 26).map (fun v => BitVec.ofNat 16 (0x41 + v)) ++
    (List.range 26).map (fun v => BitVec.ofNat 16 (0x61 + v)) ++
    (List.range 10).map (fun v => BitVec.ofNat 16 (0x30 + v)) ++ [0x2B, 0x2F]

/-- R223: the sixteen hex digits by their codes, lower and upper case. -/
def hexCodes (upper : Bool) : List Code :=
  [0x30, 0x31, 0x32, 0x33, 0x34, 0x35, 0x36, 0x37, 0x38, 0x39] ++
    if upper then [0x41, 0x42, 0x43, 0x44, 0x45, 0x46] else [0x61, 0x62, 0x63, 0x64, 0x65, 0x66]

end Sys2Proof.Claims

open Sys2Proof.Claims

/-! ## Reset -/

/-- R341: the reset state in words; and the first thing that happens is the host's first transaction. -/
def Obligations.ResetLeavesEngineIdle : Prop :=
  State.reset.phase = .idle ∧ State.reset.pend = none ∧
  State.reset.dvalid = false ∧ State.reset.h = ⟨0, 0, 0, 0⟩ ∧ State.reset.outlen = 0 ∧
  State.reset.err = 0 ∧ State.reset.ien = 0 ∧
  State.reset.hexUp = false ∧ State.reset.padEnabled = false ∧ State.reset.radix = 0 ∧
  ∀ t rest, step { State.reset with agenda := t :: rest } = takeTurn t { State.reset with agenda := rest }

/-- R47, R71: what the host reads after reset (vectors R-1, R-2, R-11). `ALPHA` is free and left out. -/
def Obligations.RegistersReadZeroAfterReset : Prop :=
  (∀ r : Reg, r.readable = true → r ≠ .id → (∀ i, r ≠ .alpha i) → readReg State.reset r = 0) ∧
  readReg State.reset .id = 0x4D443501 ∧ State.reset.irq = false

/-- R340, R47: the reset input in any state. `ALPHA` is whatever the free value gives. -/
def Obligations.ResetInputGivesResetState : Prop :=
  ∀ (s : State) (rest : List Turn), s.agenda = .reset :: rest →
    ∃ t, step s = .next t ∧
      t = { State.reset with
        alpha := t.alpha, agenda := rest, replies := s.replies, resets := s.resets + 1 }

/-- R284, R49: SRST in any state, busy or in FAULT; also as the exact word on the bus. -/
def Obligations.SoftResetKeepsOnlyAlpha : Prop :=
  ∀ s : State,
    exec .srst s = .next { State.reset with
      alpha := s.alpha, agenda := s.agenda, replies := s.replies, resets := s.resets } ∧
    ∀ rest lat, s.agenda = .write 0x000 .word 0x0000000F lat :: rest →
      step s = .next { State.reset with
        alpha := s.alpha, agenda := rest, replies := .ofWrite .okay :: s.replies, resets := s.resets }

/-! ## The invariant -/

/-- R46 and the ranges of R34, R35, R42: they hold at reset. -/
def Obligations.ResetMeetsInvariant : Prop := State.reset.Inv

/-- From every state that meets the invariant the machine takes a step, to a state that meets it: no
transaction and no command stops the engine (R44, R46, R355). -/
def Obligations.EveryStepKeepsInvariant : Prop :=
  ∀ s : State, s.Inv → ∃ t, step s = .next t ∧ t.Inv

/-- R46 itself: clauses (i) to (viii) in every state that any sequence of turns reaches from reset. -/
def Obligations.ReachableStatesMeetR46 : Prop :=
  ∀ (turns : List Turn) (n : Nat) (t : State),
    steps n { State.reset with agenda := turns } = .next t →
      (t.err ≠ 0 ↔ t.phase = .fault) ∧
      (t.busy = true ↔ t.pend ≠ none) ∧
      (t.phase = .fault → ∀ op, t.pend = some op → op = .cmd 0x00000000 ∨ op = .cmd 0x0000000E) ∧
      (t.dvalid = true → t.phase = .idle) ∧
      (t.outlen.toNat > 0 → t.dvalid = true) ∧
      t.len.toNat ≤ 2 ^ 29 - 1 ∧
      (t.phase = .key ∨ t.phase = .msg →
        ∀ p : Fin 64, t.len.toNat % 64 ≤ p.val → blockByte t.blk p = 0) ∧
      (t.err = 0 → t.ecause = 0 ∧ t.eaddr = 0 ∧ t.edata = 0) ∧
      (t.phase = .key → t.mode = .hmac)

/-! ## Steps -/

/-- R70, R90: a host's write of an instruction, completed at once, is `exec` of the instruction and the reply
OKAY; `withFetchWord` of an instruction's word is such a write. That the completion follows at once is the
model's choice of latency (notes/assumptions/4.md; O9 has the later completions), and so is the port of a
bare table word (notes/assumptions/5.md). -/
def Obligations.StepRunsTheDecodedInstruction : Prop :=
  (∀ (i : Instr) (s : State) (rest : List Turn),
    s.agenda = .write (portOf i).offset .word (encode i) .atOnce :: rest →
      step s = withReply (.ofWrite .okay) (exec i { s with agenda := rest })) ∧
  ∀ (i : Instr) (s : State) (nbits w : Nat), decodeTableWord nbits w = some i →
    step (s.withFetchWord nbits w) = withReply (.ofWrite .okay) (exec i s)

/-- R44: an accepted operation pends with nothing else changed, and the engine step then performs exactly
what the instruction does. -/
def Obligations.EngineStepCompletesAcceptedOperation : Prop :=
  ∀ (i : Instr) (s : State) (rest : List Turn), i ≠ .srst → acceptance i s = none →
    (s.agenda = .write (portOf i).offset .word (encode i) .later :: rest →
      step s = .next { s with
        pend := some (operationOf i), agenda := rest, replies := .ofWrite .okay :: s.replies }) ∧
    engineStep { s with pend := some (operationOf i) } = exec i s

/-- R44, R345: while an accepted operation pends, every register but STATUS reads as before its
acceptance, and in STATUS only BUSY and IRQ can differ. -/
def Obligations.ReadsWhileBusyShowTheStateBefore : Prop :=
  ∀ (s : State) (op : Operation) (off : Offset), s.pend = none →
    (off ≠ 0x008 → readAt { s with pend := some op } off = readAt s off) ∧
    { s with pend := some op }.status.getLsbD 0 = true ∧
    { s with pend := some op }.status.getLsbD 3 = (s.errEnabled && s.err != 0) ∧
    ∀ j, j ≠ 0 → j ≠ 3 → { s with pend := some op }.status.getLsbD j = s.status.getLsbD j

/-- R17, R352: however often the host's WAIT loops read STATUS before each completion, a program of
instructions leaves the engine as executing them one after another does. Turns and latency are the model's
form (notes/assumptions/3.md, 4.md). -/
def Obligations.LatencyNeverChangesTheResult : Prop :=
  ∀ (ps : List Timed) (s t : State) (rest : List Turn), s.pend = none →
    s.agenda = programTurns ps ++ rest → execAll (ps.map Prod.fst) s = .next t →
      ∃ rs, steps (programTurns ps).length s = .next { t with agenda := rest, replies := rs }

/-! ## The bus -/

/-- R67, R35: a transaction the aperture refuses takes the ACCESS trap and returns ERROR, a read with data
0. For a narrow write the captured data are the low lanes (notes/assumptions/6.md). -/
def Obligations.RefusedTransactionTakesAccessTrap : Prop :=
  ∀ (s : State) (off : Offset) (size : Size) (rest : List Turn),
    (s.agenda = .read off size :: rest → ¬ (size = .word ∧ readableOffset off.toNat) →
      step s = .next (reply (.ofRead 0 .error) (raise .access off false 0 { s with agenda := rest }))) ∧
    ∀ data lat, s.agenda = .write off size data lat :: rest →
      ¬ (size = .word ∧ writableOffset off.toNat) →
      step s = .next (reply (.ofWrite .error)
        (raise .access off true (drivenData size data) { s with agenda := rest }))

/-- R64, R71: a legal read, in every phase and while BUSY, changes no state and returns a value with
OKAY. -/
def Obligations.LegalReadChangesNothing : Prop :=
  ∀ (s : State) (off : Offset) (rest : List Turn), s.agenda = .read off .word :: rest →
    readableOffset off.toNat →
    step s = .next { s with agenda := rest, replies := .ofRead (readAt s off) .okay :: s.replies }

/-- R71, R92 with R21, R24, R33 to R42: what each readable offset returns. -/
def Obligations.RegistersReadAtTheirOffsets : Prop :=
  ∀ s : State,
    readAt s 0x008 = s.status ∧ readAt s 0x00C = s.err.setWidth 32 ∧
    readAt s 0x010 = s.ecause.setWidth 32 ∧ readAt s 0x014 = s.eaddr ∧ readAt s 0x018 = s.edata ∧
    readAt s 0x01C = s.ien.setWidth 32 ∧ readAt s 0x020 = s.cfg.setWidth 32 ∧
    readAt s 0x024 = s.b64pad.setWidth 32 ∧ readAt s 0x028 = s.radix ∧ readAt s 0x02C = s.len ∧
    readAt s 0x030 = s.outlen.setWidth 32 ∧ readAt s 0x040 = s.h.a ∧ readAt s 0x044 = s.h.b ∧
    readAt s 0x048 = s.h.c ∧ readAt s 0x04C = s.h.d ∧ readAt s 0xFFC = 0x4D443501 ∧
    (∀ i : Fin 256, readAt s (BitVec.ofNat 12 (0x400 + 4 * i.val)) = (s.alpha.get i).setWidth 32) ∧
    ∀ i : Fin 128, readAt s (BitVec.ofNat 12 (0x800 + 4 * i.val)) =
      if i.val < s.outlen.toNat then (s.out.get i).setWidth 32 else 0

/-- R32: the fields of STATUS. -/
def Obligations.StatusWordFields : Prop :=
  ∀ s : State,
    s.status.getLsbD 0 = s.pend.isSome ∧ s.status.getLsbD 1 = s.dvalid ∧
    s.status.getLsbD 2 = (s.mode == .hmac) ∧ s.status.getLsbD 3 = s.irq ∧
    s.status.extractLsb' 4 2 =
      (match s.phase with
        | .idle => 0
        | .key => 1
        | .msg => 2
        | .fault => 3) ∧
    s.status.extractLsb' 6 26 = 0

/-- R48: the interrupt output is a level, a function of the state alone. -/
def Obligations.InterruptIsALevelOfTheState : Prop :=
  ∀ s : State,
    (s.irq = true ↔
      (s.ien.getLsbD 0 = true ∧ s.pend = none) ∨ (s.ien.getLsbD 1 = true ∧ s.err ≠ 0)) ∧
    s.status.getLsbD 3 = s.irq

/-- R66, R70 step 5: configuration writes, in any phase while nothing pends: the fields are stored at once,
everything else is unchanged, and the ignored bits read back as 0. -/
def Obligations.ConfigurationWriteStoresItsFields : Prop :=
  ∀ (s : State) (data : Word) (lat : Latency) (rest : List Turn), s.pend = none →
    (s.agenda = .write 0x01C .word data lat :: rest → ∃ t, step s = .next t ∧
      t = { s with ien := data.extractLsb' 0 2, agenda := rest, replies := .ofWrite .okay :: s.replies } ∧
      readAt t 0x01C = data &&& 0x00000003) ∧
    (s.agenda = .write 0x020 .word data lat :: rest → ∃ t, step s = .next t ∧
      t = { s with cfg := data.extractLsb' 0 1, agenda := rest, replies := .ofWrite .okay :: s.replies } ∧
      readAt t 0x020 = data &&& 0x00000001) ∧
    (s.agenda = .write 0x024 .word data lat :: rest → ∃ t, step s = .next t ∧
      t = { s with
        b64pad := data.extractLsb' 0 17, agenda := rest, replies := .ofWrite .okay :: s.replies } ∧
      readAt t 0x024 = data &&& 0x0001FFFF) ∧
    (s.agenda = .write 0x028 .word data lat :: rest → ∃ t, step s = .next t ∧
      t = { s with radix := data, agenda := rest, replies := .ofWrite .okay :: s.replies } ∧
      readAt t 0x028 = data) ∧
    ∀ i : Fin 256,
      s.agenda = .write (BitVec.ofNat 12 (0x400 + 4 * i.val)) .word data lat :: rest →
      ∃ t, step s = .next t ∧
        t = { s with
          alpha := s.alpha.set i (data.extractLsb' 0 16), agenda := rest
          replies := .ofWrite .okay :: s.replies } ∧
        readAt t (BitVec.ofNat 12 (0x400 + 4 * i.val)) = data &&& 0x0000FFFF

/-- R70 step 4, R304, R344: any write but the exact SRST word while an operation pends takes the BUSY trap,
an illegal command word too, and the operation is abandoned. -/
def Obligations.WriteWhileBusyTakesBusyTrap : Prop :=
  ∀ (s : State) (off : Offset) (data : Word) (lat : Latency) (rest : List Turn), s.pend ≠ none →
    s.agenda = .write off .word data lat :: rest → writableOffset off.toNat →
    ¬ (off = 0x000 ∧ data = 0x0000000F) →
      step s = .next (reply (.ofWrite .okay) (raise .busy off true data { s with agenda := rest }))

/-- R97, R101, R70 step 6: a word written to CMD that matches no row of R98 takes the ILLOP trap. -/
def Obligations.IllegalCommandWordTakesIllopTrap : Prop :=
  ∀ (s : State) (data : Word) (lat : Latency) (rest : List Turn), s.pend = none →
    s.agenda = .write 0x000 .word data lat :: rest → wellFormedCommand data = false →
      step s = .next (reply (.ofWrite .okay) (raise .illop 0x000 true data { s with agenda := rest }))

/-! ## Traps -/

/-- R306: trap entry, every line of its pseudocode and its list of what is unchanged. -/
def Obligations.TrapEntryDestroysTheContext : Prop :=
  ∀ (c : Cause) (off : Offset) (isWrite : Bool) (data : Word) (s t : State),
    t = raise c off isWrite data s →
    (s.err = 0 → t.ecause.toNat = c.code ∧ t.eaddr.getLsbD 31 = isWrite ∧
      t.eaddr.extractLsb' 12 19 = 0 ∧ t.eaddr.extractLsb' 0 12 = off ∧
      t.edata = if isWrite then data else 0) ∧
    (s.err ≠ 0 → t.ecause = s.ecause ∧ t.eaddr = s.eaddr ∧ t.edata = s.edata) ∧
    (∀ j, j < 6 → t.err.getLsbD j = (s.err.getLsbD j || j + 1 == c.code)) ∧
    t.pend = none ∧ t.phase = .fault ∧ t.mode = .plain ∧ t.dvalid = false ∧ t.outlen = 0 ∧ t.len = 0 ∧
    t.h = ⟨0, 0, 0, 0⟩ ∧ (∀ i, t.blk.get i = 0) ∧ (∀ i, t.key.get i = 0) ∧
    t.ien = s.ien ∧ t.cfg = s.cfg ∧ t.b64pad = s.b64pad ∧ t.radix = s.radix ∧ t.alpha = s.alpha ∧
    t.out = s.out ∧ (s.ien.getLsbD 1 = true → t.irq = true)

/-- R301: the six causes, their codes and their ERR bits. -/
def Obligations.CauseCodesAndErrBits : Prop :=
  [Cause.access, .busy, .illop, .seq, .lenovf, .cfgerr].map Cause.code = [1, 2, 3, 4, 5, 6] ∧
  [Cause.access, .busy, .illop, .seq, .lenovf, .cfgerr].map Cause.errBit =
    [0x01, 0x02, 0x04, 0x08, 0x10, 0x20]

/-- R99, R301, R303: an instruction that is not legal in the current phase takes the SEQ trap, whatever
its operands. -/
def Obligations.IllegalPhaseTakesSeqTrap : Prop :=
  ∀ (i : Instr) (s : State), s.pend = none → ¬ legalIn s.phase s.dvalid i →
    exec i s = .next (raise .seq (portOf i).offset true (encode i) s)

/-- R145, R146, R349: a push that would exceed `2^29 - 1` bytes takes the LENOVF trap and absorbs
nothing. -/
def Obligations.OverlongPushTakesLenovfTrap : Prop :=
  ∀ (i : Instr) (s : State), s.pend = none → legalIn s.phase s.dvalid i → isPush i →
    s.len.toNat + pushCount i > 2 ^ 29 - 1 →
      exec i s = .next (raise .lenovf (portOf i).offset true (encode i) s)

/-- R240, R301: ERDX with a digest but an illegal RADIX takes the CFGERR trap. -/
def Obligations.IllegalRadixTakesCfgerrTrap : Prop :=
  ∀ s : State, s.pend = none → s.phase = .idle → s.dvalid = true →
    (s.radix.toNat < 2 ∨ 256 < s.radix.toNat) →
      exec .erdx s = .next (raise .cfgerr 0x000 true 0x0000000A s)

/-- R70, R303: an instruction whose tests all pass never traps: ERR keeps its bits (CLRF clears them), and
the machine is in FAULT afterwards only if it was before. -/
def Obligations.AcceptedInstructionNeverTraps : Prop :=
  ∀ (i : Instr) (s : State), i ≠ .srst → s.pend = none → legalIn s.phase s.dvalid i →
    (isPush i → s.len.toNat + pushCount i ≤ 2 ^ 29 - 1) →
    (i = .erdx → 2 ≤ s.radix.toNat ∧ s.radix.toNat ≤ 256) →
      ∃ t, exec i s = .next t ∧ (t.err = if i = .clrf then 0 else s.err) ∧
        (t.phase = .fault → s.phase = .fault) ∧ t.pend = none

/-! ## System commands -/

/-- R281: NOP, in every phase: it pends and changes nothing; while BUSY it takes the BUSY trap. -/
def Obligations.NopChangesNothing : Prop :=
  ∀ s : State,
    (s.pend = none → exec .nop s = .next s ∧ issue .nop s = { s with pend := some (.cmd 0x00000000) }) ∧
    (s.pend ≠ none → exec .nop s = .next (raise .busy 0x000 true 0x00000000 s))

/-- R308, R282: CLRF clears the trap record and leaves FAULT for IDLE, and restores nothing; SRST and the
reset input leave FAULT too; IEN is touched by neither entry nor return. -/
def Obligations.ClrfReturnsFromTrap : Prop :=
  ∀ s : State,
    (s.pend = none → exec .clrf s = .next { s with
      err := 0, ecause := 0, eaddr := 0, edata := 0
      phase := if s.phase = .fault then .idle else s.phase }) ∧
    (softReset s).phase = .idle ∧ (hardReset s).phase = .idle ∧
    ∀ (c : Cause) (off : Offset) (isWrite : Bool) (data : Word), (raise c off isWrite data s).ien = s.ien

/-! ## Opening a context, pushing, finishing -/

/-- R176, R22: HINIT. -/
def Obligations.HinitOpensPlainContext : Prop :=
  ∀ s : State, s.pend = none → s.phase ≠ .fault →
    exec .hinit s = .next { s with
      h := ⟨0x67452301, 0xEFCDAB89, 0x98BADCFE, 0x10325476⟩
      blk := Vector.replicate 16 0, key := Vector.replicate 16 0, len := 0
      mode := .plain, phase := .msg, dvalid := false, outlen := 0 }

/-- R202, R22: KINIT. -/
def Obligations.KinitOpensHmacContext : Prop :=
  ∀ s : State, s.pend = none → s.phase ≠ .fault →
    exec .kinit s = .next { s with
      h := ⟨0x67452301, 0xEFCDAB89, 0x98BADCFE, 0x10325476⟩
      blk := Vector.replicate 16 0, key := Vector.replicate 16 0, len := 0
      mode := .hmac, phase := .key, dvalid := false, outlen := 0 }

/-- R145, R144: PUSHB, byte by byte of the block and of the key block. -/
def Obligations.PushbAbsorbsOneByte : Prop :=
  ∀ (b : Byte) (s : State), s.pend = none → s.phase = .key ∨ s.phase = .msg →
    s.len.toNat + 1 ≤ 2 ^ 29 - 1 →
    ∃ (t : State) (filled : Vector Word 16), exec (.pushb b) s = .next t ∧
      t = { s with h := t.h, blk := t.blk, key := t.key, len := s.len + 1 } ∧
      (∀ q : Fin 64, blockByte filled q =
        if q.val = s.len.toNat % 64 then blockByte s.blk q ||| b else blockByte s.blk q) ∧
      (s.len.toNat % 64 ≠ 63 → t.blk = filled ∧ t.h = s.h) ∧
      (s.len.toNat % 64 = 63 → t.blk = Vector.replicate 16 0 ∧ t.h = compress s.h filled) ∧
      (s.phase = .key ∧ s.len.toNat < 64 → ∀ q : Fin 64, blockByte t.key q =
        if q.val = s.len.toNat then blockByte s.key q ||| b else blockByte s.key q) ∧
      (¬ (s.phase = .key ∧ s.len.toNat < 64) → t.key = s.key)

/-- R146, R73: DINW is four PUSHB operations in lane order, inside one engine step. -/
def Obligations.DinwEqualsFourPushes : Prop :=
  ∀ (w : Word) (s : State), s.pend = none → s.phase = .key ∨ s.phase = .msg →
    s.len.toNat + 4 ≤ 2 ^ 29 - 1 →
    ∃ t, exec (.dinw w) s = .next t ∧
      execAll [.pushb (w.extractLsb' 0 8), .pushb (w.extractLsb' 8 8), .pushb (w.extractLsb' 16 8),
        .pushb (w.extractLsb' 24 8)] s = .next t ∧
      t = { s with h := t.h, blk := t.blk, key := t.key, len := s.len + 4 }

/-- R146, R73: a DINW at a word boundary deposits its word whole; the sixteenth word of a block is
compressed with it. -/
def Obligations.AlignedDinwDepositsItsWord : Prop :=
  ∀ (w : Word) (s t : State) (j : Fin 16), s.Inv → s.pend = none → s.phase = .key ∨ s.phase = .msg →
    s.len.toNat + 4 ≤ 2 ^ 29 - 1 → s.len.toNat % 64 = 4 * j.val → exec (.dinw w) s = .next t →
      (j.val < 15 → t.blk = s.blk.set j w ∧ t.h = s.h) ∧
      (j.val = 15 → t.blk = Vector.replicate 16 0 ∧ t.h = compress s.h (s.blk.set j w))

/-- R204, R201: KDONE after at most 64 key bytes. -/
def Obligations.KdoneUsesShortKeyAsItIs : Prop :=
  ∀ s : State, s.pend = none → s.phase = .key → s.len.toNat ≤ 64 →
    exec .kdone s = .next { s with
      h := compress iv (s.key.map fun k => k ^^^ 0x36363636)
      blk := Vector.replicate 16 0, len := 64, phase := .msg }

/-- R204, R201, R177: KDONE after more than 64 key bytes; the digest of the key replaces it. -/
def Obligations.KdoneHashesLongKey : Prop :=
  ∀ s : State, s.pend = none → s.phase = .key → 64 < s.len.toNat →
    ∃ (q : Quad) (k : Vector Word 16), q = (finish s).h ∧
      k.toList = [q.a, q.b, q.c, q.d] ++ List.replicate 12 0 ∧
      exec .kdone s = .next { s with
        h := compress iv (k.map fun x => x ^^^ 0x36363636)
        key := k, blk := Vector.replicate 16 0, len := 64, phase := .msg }

/-- R177, R172, R174: the padding action: one or two final compressions. -/
def Obligations.FinishPadsOneOrTwoBlocks : Prop :=
  ∀ (s : State) (marked : Vector Word 16) (p : Fin 64), p.val = s.len.toNat % 64 →
    (∀ q : Fin 64, blockByte marked q = if q = p then blockByte s.blk q ||| 0x80 else blockByte s.blk q) →
    (p.val ≤ 55 → finish s = { s with
      h := compress s.h ((marked.set 14 (BitVec.ofNat 32 (8 * s.len.toNat))).set 15 0)
      blk := Vector.replicate 16 0 }) ∧
    (56 ≤ p.val → finish s = { s with
      h := compress (compress s.h marked)
        (((Vector.replicate 16 0).set 14 (BitVec.ofNat 32 (8 * s.len.toNat))).set 15 0)
      blk := Vector.replicate 16 0 })

/-- R178: FINAL of a plain hash. -/
def Obligations.FinalFinishesPlainHash : Prop :=
  ∀ s : State, s.pend = none → s.phase = .msg → s.mode = .plain →
    exec .final s = .next { s with
      h := (finish s).h, blk := Vector.replicate 16 0, key := Vector.replicate 16 0
      phase := .idle, dvalid := true }

/-- R178, R206: FINAL of an HMAC: the opad block, then the padded inner digest. -/
def Obligations.FinalRunsOuterHash : Prop :=
  ∀ s : State, s.pend = none → s.phase = .msg → s.mode = .hmac →
    ∃ (q : Quad) (outer : Vector Word 16), q = (finish s).h ∧
      outer.toList = [q.a, q.b, q.c, q.d, 0x00000080, 0, 0, 0, 0, 0, 0, 0, 0, 0, 0x00000280, 0] ∧
      exec .final s = .next { s with
        h := compress (compress iv (s.key.map fun k => k ^^^ 0x5C5C5C5C)) outer
        blk := Vector.replicate 16 0, key := Vector.replicate 16 0, phase := .idle, dvalid := true }

/-- R180: streaming is the whole-message function, for any mixture of PUSHB and DINW. -/
def Obligations.StreamedMessageHashesToMd5 : Prop :=
  ∀ (is : List Instr) (s : State), s.pend = none → s.phase ≠ .fault → (∀ i ∈ is, isPush i) →
    (is.flatMap pushedBytes).length ≤ 2 ^ 29 - 1 →
    ∃ t, execAll (.hinit :: is ++ [.final]) s = .next t ∧ t.h = md5 (is.flatMap pushedBytes) ∧
      t.dvalid = true ∧ t.mode = .plain ∧ t.phase = .idle ∧
      t.len.toNat = (is.flatMap pushedBytes).length

/-- R207: the HMAC command sequence computes hmac(key, data) of R200. -/
def Obligations.HmacSequenceComputesHmac : Prop :=
  ∀ (ks ds : List Instr) (s : State), s.pend = none → s.phase ≠ .fault → (∀ i ∈ ks, isPush i) →
    (∀ i ∈ ds, isPush i) → (ks.flatMap pushedBytes).length ≤ 2 ^ 29 - 1 →
    (ds.flatMap pushedBytes).length ≤ 2 ^ 29 - 65 →
    ∃ t, execAll (.kinit :: ks ++ .kdone :: ds ++ [.final]) s = .next t ∧
      t.h = hmac (ks.flatMap pushedBytes) (ds.flatMap pushedBytes) ∧ t.dvalid = true ∧
      t.mode = .hmac ∧ t.phase = .idle ∧ t.key = Vector.replicate 16 0 ∧ t.blk = Vector.replicate 16 0

/-- R181: the two digests the source states, rendered as hex. -/
def Obligations.StatedDigestsComeOut : Prop :=
  toHex false (md5 [0x61, 0x62, 0x63]).bytes =
    [0x39, 0x30, 0x30, 0x31, 0x35, 0x30, 0x39, 0x38, 0x33, 0x63, 0x64, 0x32, 0x34, 0x66, 0x62, 0x30,
     0x64, 0x36, 0x39, 0x36, 0x33, 0x66, 0x37, 0x64, 0x32, 0x38, 0x65, 0x31, 0x37, 0x66, 0x37, 0x32] ∧
  toHex false (md5 []).bytes =
    [0x64, 0x34, 0x31, 0x64, 0x38, 0x63, 0x64, 0x39, 0x38, 0x66, 0x30, 0x30, 0x62, 0x32, 0x30, 0x34,
     0x65, 0x39, 0x38, 0x30, 0x30, 0x39, 0x39, 0x38, 0x65, 0x63, 0x66, 0x38, 0x34, 0x32, 0x37, 0x65]

/-! ## The datapath -/

/-- R161: the round functions, bit by bit. -/
def Obligations.RoundFunctionsBitByBit : Prop :=
  ∀ (b c d : Word) (j : Nat), j < 32 →
    (roundFn .ff b c d).getLsbD j = (if b.getLsbD j then c.getLsbD j else d.getLsbD j) ∧
    (roundFn .gg b c d).getLsbD j = (if d.getLsbD j then b.getLsbD j else c.getLsbD j) ∧
    (roundFn .hh b c d).getLsbD j = (b.getLsbD j ^^ c.getLsbD j ^^ d.getLsbD j) ∧
    (roundFn .ii b c d).getLsbD j = (c.getLsbD j ^^ (b.getLsbD j || !d.getLsbD j))

/-- R165: the step table follows the word-index and shift schedules. -/
def Obligations.StepTableFollowsTheSchedule : Prop :=
  stepTable.length = 64 ∧
  ∀ i : Fin 16,
    (stepTable[i.val]?.map fun r => (r.round, r.k.val, r.s)) =
      some (.ff, i.val, [7, 12, 17, 22].getD (i.val % 4) 0) ∧
    (stepTable[16 + i.val]?.map fun r => (r.round, r.k.val, r.s)) =
      some (.gg, (1 + 5 * i.val) % 16, [5, 9, 14, 20].getD (i.val % 4) 0) ∧
    (stepTable[32 + i.val]?.map fun r => (r.round, r.k.val, r.s)) =
      some (.hh, (5 + 3 * i.val) % 16, [4, 11, 16, 23].getD (i.val % 4) 0) ∧
    (stepTable[48 + i.val]?.map fun r => (r.round, r.k.val, r.s)) =
      some (.ii, 7 * i.val % 16, [6, 10, 15, 21].getD (i.val % 4) 0)

/-- R143: packing and unpacking. -/
def Obligations.PackingRoundTrips : Prop :=
  (∀ m : List Byte,
    wordsToBytes (bytesToWords m) = m ++ List.replicate ((4 - m.length % 4) % 4) 0) ∧
  ∀ ws : List Word, bytesToWords (wordsToBytes ws) = ws

/-! ## The encoders -/

/-- R225, R224, R223: EHEX. -/
def Obligations.EhexWritesTheHexDigits : Prop :=
  ∀ s : State, s.pend = none → s.phase = .idle → s.dvalid = true →
    ∃ t, exec .ehex s = .next t ∧ t = { s with out := t.out, outlen := 32 } ∧
      (∀ k, k < 16 →
        t.out.toList[2 * k]? = (hexCodes s.hexUp)[dg s.h k / 16]? ∧
        t.out.toList[2 * k + 1]? = (hexCodes s.hexUp)[dg s.h k % 16]?) ∧
      ∀ j, 32 ≤ j → t.out.toList[j]? = s.out.toList[j]?

/-- R232, R230: EB64, with and without the pad character. -/
def Obligations.Eb64WritesTheBase64Digits : Prop :=
  ∀ s : State, s.pend = none → s.phase = .idle → s.dvalid = true →
    ∃ t, exec .eb64 s = .next t ∧
      t = { s with out := t.out, outlen := if s.b64pad.getLsbD 16 then 24 else 22 } ∧
      (∀ g j, g < 5 → j < 4 → t.out.toList[4 * g + j]? =
        b64Codes[(dg s.h (3 * g) * 2 ^ 16 + dg s.h (3 * g + 1) * 2 ^ 8 + dg s.h (3 * g + 2)) /
          2 ^ (6 * (3 - j)) % 64]?) ∧
      t.out.toList[20]? = b64Codes[dg s.h 15 / 4]? ∧
      t.out.toList[21]? = b64Codes[dg s.h 15 % 4 * 16]? ∧
      (s.b64pad.getLsbD 16 = true →
        t.out.toList[22]? = some (s.b64pad.extractLsb' 0 16) ∧
        t.out.toList[23]? = some (s.b64pad.extractLsb' 0 16)) ∧
      ∀ j, (if s.b64pad.getLsbD 16 then 24 else 22) ≤ j → t.out.toList[j]? = s.out.toList[j]?

/-- R246, R245, R241: ERDX writes the base-RADIX digits of the digest, most significant first, through the
alphabet, to a length that loses no digit. -/
def Obligations.ErdxWritesTheRadixDigits : Prop :=
  ∀ s : State, s.pend = none → s.phase = .idle → s.dvalid = true →
    2 ≤ s.radix.toNat → s.radix.toNat ≤ 256 →
    ∃ (t : State) (len : Nat), exec .erdx s = .next t ∧
      t = { s with out := t.out, outlen := BitVec.ofNat 8 len } ∧ len ≤ 128 ∧
      2 ^ 128 ≤ s.radix.toNat ^ len ∧ (∀ m, m < len → s.radix.toNat ^ m < 2 ^ 128) ∧
      (∀ k, k < len → t.out.toList[k]? =
        s.alpha.toList[digestNumber s.h / s.radix.toNat ^ (len - 1 - k) % s.radix.toNat]?) ∧
      ∀ j, len ≤ j → t.out.toList[j]? = s.out.toList[j]?

/-- R243, R244: the output length is the least that loses no digit. -/
def Obligations.RadixLengthIsLeast : Prop :=
  ∀ r, 2 ≤ r → r ≤ 256 → 2 ^ 128 ≤ r ^ radixLength r ∧ ∀ m, m < radixLength r → r ^ m < 2 ^ 128

/-- R242, R246: the long division yields the digits of the dividend, whatever the limbs. -/
def Obligations.LongDivisionYieldsDigits : Prop :=
  ∀ (r n j : Nat) (ds : List Nat), 2 ≤ r → j < n →
    (remainders r n ds)[j]? = some (ds.foldl (fun a d => a * 65536 + d) 0 / r ^ j % r)

/-- R221: an encoder changes only OUT and OUTLEN, and run again it changes nothing. -/
def Obligations.EncodersAreRepeatable : Prop :=
  ∀ (i : Instr) (s : State), i = .ehex ∨ i = .eb64 ∨ i = .erdx → s.pend = none →
    s.phase = .idle → s.dvalid = true → (i = .erdx → 2 ≤ s.radix.toNat ∧ s.radix.toNat ≤ 256) →
    ∃ t, exec i s = .next t ∧ t = { s with out := t.out, outlen := t.outlen } ∧ exec i t = .next t

/-! ## Frames over the whole machine -/

/-- R20, R36 to R41, R306: no instruction but SRST changes the configuration, the alphabet or the bus
record. -/
def Obligations.InstructionsLeaveConfigurationAlone : Prop :=
  ∀ (i : Instr) (s : State), i ≠ .srst → ∃ t, exec i s = .next t ∧
    t.ien = s.ien ∧ t.cfg = s.cfg ∧ t.b64pad = s.b64pad ∧ t.radix = s.radix ∧ t.alpha = s.alpha ∧
    t.agenda = s.agenda ∧ t.replies = s.replies ∧ t.resets = s.resets

/-- R342, R41: an ALPHA entry changes only by a write to it or by the reset input. -/
def Obligations.AlphaChangesOnlyByWriteOrReset : Prop :=
  ∀ (s t : State) (i : Fin 256), step s = .next t → t.alpha.get i ≠ s.alpha.get i →
    (∃ rest, s.agenda = .reset :: rest) ∨
    ∃ data lat rest,
      s.agenda = .write (BitVec.ofNat 12 (0x400 + 4 * i.val)) .word data lat :: rest ∧
      t.alpha.get i = data.extractLsb' 0 16

/-- R21, R81: the host never writes the digest registers: a transaction that only accepts, stores or reads
leaves them or (at a trap or SRST) clears them. -/
def Obligations.HostNeverWritesDigestRegisters : Prop :=
  ∀ (s t : State) (turn : Turn) (rest : List Turn), s.agenda = turn :: rest → turn ≠ .engine →
    (∀ off size data, turn ≠ .write off size data .atOnce) → step s = .next t →
      t.h = s.h ∨ t.h = ⟨0, 0, 0, 0⟩

/-- R23, R25: the host can read neither BLK nor KEY: no register and no interrupt level depends on them. -/
def Obligations.BlockAndKeyAreNotReadable : Prop :=
  ∀ (s : State) (blk key : Vector Word 16) (off : Offset),
    readAt { s with blk := blk, key := key } off = readAt s off ∧
    { s with blk := blk, key := key }.irq = s.irq

/-! ## Encodings -/

/-- R96, R98: every instruction's word, written to its port, decodes to it. -/
def Obligations.DecodeOfEncodeIsTheInstruction : Prop :=
  ∀ i : Instr, decodeAt (portOf i) (encode i) = .ok i

/-- R98: each word has one meaning: a word that decodes at a port is the word of what it decodes to. -/
def Obligations.EncodeOfDecodeIsTheWord : Prop :=
  ∀ (p : Port) (w : Word) (i : Instr), decodeAt p w = .ok i → portOf i = p ∧ encode i = w

/-- R96, R97, R98, R101: the decoder accepts exactly the words that match a row of the table, and no word
matches two rows. -/
def Obligations.DecoderAcceptsExactlyTheTable : Prop :=
  ∀ w : Word,
    ((∃ i, decodeCmd w = .ok i) ↔ wellFormedCommand w = true) ∧
    (commandRows.filter fun r => r.selects w).length ≤ 1

/-- R93, R94, R95: words written out from the formats, one per family, and illegal words. -/
def Obligations.WrittenOutWordsDecode : Prop :=
  decodeCmd 0x00000001 = .ok .hinit ∧ decodeCmd 0x00006104 = .ok (.pushb 0x61) ∧
  decodeCmd 0x00000003 = .ok .kdone ∧ decodeCmd 0x0000000A = .ok .erdx ∧
  decodeCmd 0x0000000E = .ok .clrf ∧ decodeAt .din 0x65646362 = .ok (.dinw 0x65646362) ∧
  decodeCmd 0x0000010F = .error .reservedBits ∧ decodeCmd 0x00010004 = .error .reservedBits ∧
  decodeCmd 0x00000006 = .error .undefinedOpcode

/-! ## The host's functions -/

/-- R126: no text of 16-bit units is unsupported; R122: a text of ASCII units is its own bytes. -/
def Obligations.EveryTextHasUtf8Bytes : Prop :=
  (∀ text : List Code, ∃ bytes, textToUtf8Bytes text = .ok bytes) ∧
  ∀ text : List Code, (∀ u ∈ text, u.toNat ≤ 0x7F) →
    textToUtf8Bytes text = .ok (text.map fun u => u.extractLsb' 0 8)

/-- R261: the host program of `hex` leaves the API's string in OUT. -/
def Obligations.HexProgramComputesApiHex : Prop :=
  ∀ (text : List Code) (bytes : List Byte) (s : State), s.pend = none → s.phase ≠ .fault →
    textToUtf8Bytes text = .ok bytes → bytes.length ≤ 2 ^ 29 - 1 →
    ∃ t, execAll (.hinit :: bytes.map Instr.pushb ++ [.final, .ehex]) s = .next t ∧
      apiHex ⟨s.hexUp, s.pad⟩ text = .ok (outputOf t)

/-- R263, R264, R265: `hash` and the two salted hashes, and the refusal of empty arguments. -/
def Obligations.SaltedHashesAreHmacs : Prop :=
  ∀ (f : Format) (p s c : List Code),
    (p ≠ [] → s ≠ [] → apiSaltHash f p s = apiHmacHex f p s) ∧
    (p ≠ [] → s ≠ [] → c ≠ [] → apiFullHash f p s c =
      (apiHmacHex f p s).bind fun inner => apiHmacHex f inner c) ∧
    (p ≠ [] → apiHash f p = apiHex f p) ∧ apiHash f [] = .error .invalidArgument ∧
    (p = [] ∨ s = [] → apiSaltHash f p s = .error .invalidArgument) ∧
    (p = [] ∨ s = [] ∨ c = [] → apiFullHash f p s c = .error .invalidArgument)
end

