-- ==== Sys2Proof/Laws/State.lean ====
section
/-! SUPPORT. One lemma per field per named update of State, each true by rfl, so that no proof unfolds an
update. -/

namespace Sys2Proof.Machine

/-! The trap entry (R306). -/

@[simp] theorem raise_phase (c : Cause) (off : Offset) (w : Bool) (d : Word) (s : State) :
    (raise c off w d s).phase = .fault := rfl
@[simp] theorem raise_mode (c : Cause) (off : Offset) (w : Bool) (d : Word) (s : State) :
    (raise c off w d s).mode = .plain := rfl
@[simp] theorem raise_dvalid (c : Cause) (off : Offset) (w : Bool) (d : Word) (s : State) :
    (raise c off w d s).dvalid = false := rfl
@[simp] theorem raise_pend (c : Cause) (off : Offset) (w : Bool) (d : Word) (s : State) :
    (raise c off w d s).pend = none := rfl
@[simp] theorem raise_len (c : Cause) (off : Offset) (w : Bool) (d : Word) (s : State) :
    (raise c off w d s).len = 0 := rfl
@[simp] theorem raise_err (c : Cause) (off : Offset) (w : Bool) (d : Word) (s : State) :
    (raise c off w d s).err = s.err ||| c.errBit := rfl
@[simp] theorem raise_ecause (c : Cause) (off : Offset) (w : Bool) (d : Word) (s : State) :
    (raise c off w d s).ecause = if s.err = 0 then BitVec.ofNat 3 c.code else s.ecause := rfl
@[simp] theorem raise_eaddr (c : Cause) (off : Offset) (w : Bool) (d : Word) (s : State) :
    (raise c off w d s).eaddr = if s.err = 0 then captureAddr off w else s.eaddr := rfl
@[simp] theorem raise_edata (c : Cause) (off : Offset) (w : Bool) (d : Word) (s : State) :
    (raise c off w d s).edata = if s.err = 0 then (if w then d else 0) else s.edata := rfl
@[simp] theorem raise_ien (c : Cause) (off : Offset) (w : Bool) (d : Word) (s : State) :
    (raise c off w d s).ien = s.ien := rfl
@[simp] theorem raise_cfg (c : Cause) (off : Offset) (w : Bool) (d : Word) (s : State) :
    (raise c off w d s).cfg = s.cfg := rfl
@[simp] theorem raise_b64pad (c : Cause) (off : Offset) (w : Bool) (d : Word) (s : State) :
    (raise c off w d s).b64pad = s.b64pad := rfl
@[simp] theorem raise_radix (c : Cause) (off : Offset) (w : Bool) (d : Word) (s : State) :
    (raise c off w d s).radix = s.radix := rfl
@[simp] theorem raise_outlen (c : Cause) (off : Offset) (w : Bool) (d : Word) (s : State) :
    (raise c off w d s).outlen = 0 := rfl
@[simp] theorem raise_blk (c : Cause) (off : Offset) (w : Bool) (d : Word) (s : State) :
    (raise c off w d s).blk = zeroBlock := rfl
@[simp] theorem raise_key (c : Cause) (off : Offset) (w : Bool) (d : Word) (s : State) :
    (raise c off w d s).key = zeroBlock := rfl
@[simp] theorem raise_alpha (c : Cause) (off : Offset) (w : Bool) (d : Word) (s : State) :
    (raise c off w d s).alpha = s.alpha := rfl
@[simp] theorem raise_out (c : Cause) (off : Offset) (w : Bool) (d : Word) (s : State) :
    (raise c off w d s).out = s.out := rfl
@[simp] theorem raise_h (c : Cause) (off : Offset) (w : Bool) (d : Word) (s : State) :
    (raise c off w d s).h = ⟨0, 0, 0, 0⟩ := rfl
@[simp] theorem raise_agenda (c : Cause) (off : Offset) (w : Bool) (d : Word) (s : State) :
    (raise c off w d s).agenda = s.agenda := rfl
@[simp] theorem raise_replies (c : Cause) (off : Offset) (w : Bool) (d : Word) (s : State) :
    (raise c off w d s).replies = s.replies := rfl
@[simp] theorem raise_resets (c : Cause) (off : Offset) (w : Bool) (d : Word) (s : State) :
    (raise c off w d s).resets = s.resets := rfl

/-! The return from a trap (R308). -/

@[simp] theorem clearFault_phase (s : State) :
    (clearFault s).phase = if s.phase = .fault then .idle else s.phase := rfl
@[simp] theorem clearFault_mode (s : State) : (clearFault s).mode = s.mode := rfl
@[simp] theorem clearFault_dvalid (s : State) : (clearFault s).dvalid = s.dvalid := rfl
@[simp] theorem clearFault_pend (s : State) : (clearFault s).pend = s.pend := rfl
@[simp] theorem clearFault_len (s : State) : (clearFault s).len = s.len := rfl
@[simp] theorem clearFault_err (s : State) : (clearFault s).err = 0 := rfl
@[simp] theorem clearFault_ecause (s : State) : (clearFault s).ecause = 0 := rfl
@[simp] theorem clearFault_eaddr (s : State) : (clearFault s).eaddr = 0 := rfl
@[simp] theorem clearFault_edata (s : State) : (clearFault s).edata = 0 := rfl
@[simp] theorem clearFault_ien (s : State) : (clearFault s).ien = s.ien := rfl
@[simp] theorem clearFault_cfg (s : State) : (clearFault s).cfg = s.cfg := rfl
@[simp] theorem clearFault_b64pad (s : State) : (clearFault s).b64pad = s.b64pad := rfl
@[simp] theorem clearFault_radix (s : State) : (clearFault s).radix = s.radix := rfl
@[simp] theorem clearFault_outlen (s : State) : (clearFault s).outlen = s.outlen := rfl
@[simp] theorem clearFault_blk (s : State) : (clearFault s).blk = s.blk := rfl
@[simp] theorem clearFault_key (s : State) : (clearFault s).key = s.key := rfl
@[simp] theorem clearFault_alpha (s : State) : (clearFault s).alpha = s.alpha := rfl
@[simp] theorem clearFault_out (s : State) : (clearFault s).out = s.out := rfl
@[simp] theorem clearFault_h (s : State) : (clearFault s).h = s.h := rfl
@[simp] theorem clearFault_agenda (s : State) : (clearFault s).agenda = s.agenda := rfl
@[simp] theorem clearFault_replies (s : State) : (clearFault s).replies = s.replies := rfl
@[simp] theorem clearFault_resets (s : State) : (clearFault s).resets = s.resets := rfl

/-! SRST (R284). -/

@[simp] theorem softReset_phase (s : State) : (softReset s).phase = .idle := rfl
@[simp] theorem softReset_mode (s : State) : (softReset s).mode = .plain := rfl
@[simp] theorem softReset_dvalid (s : State) : (softReset s).dvalid = false := rfl
@[simp] theorem softReset_pend (s : State) : (softReset s).pend = none := rfl
@[simp] theorem softReset_len (s : State) : (softReset s).len = 0 := rfl
@[simp] theorem softReset_err (s : State) : (softReset s).err = 0 := rfl
@[simp] theorem softReset_ecause (s : State) : (softReset s).ecause = 0 := rfl
@[simp] theorem softReset_eaddr (s : State) : (softReset s).eaddr = 0 := rfl
@[simp] theorem softReset_edata (s : State) : (softReset s).edata = 0 := rfl
@[simp] theorem softReset_ien (s : State) : (softReset s).ien = 0 := rfl
@[simp] theorem softReset_cfg (s : State) : (softReset s).cfg = 0 := rfl
@[simp] theorem softReset_b64pad (s : State) : (softReset s).b64pad = 0 := rfl
@[simp] theorem softReset_radix (s : State) : (softReset s).radix = 0 := rfl
@[simp] theorem softReset_outlen (s : State) : (softReset s).outlen = 0 := rfl
@[simp] theorem softReset_blk (s : State) : (softReset s).blk = zeroBlock := rfl
@[simp] theorem softReset_key (s : State) : (softReset s).key = zeroBlock := rfl
@[simp] theorem softReset_alpha (s : State) : (softReset s).alpha = s.alpha := rfl
@[simp] theorem softReset_out (s : State) : (softReset s).out = tabulate 128 fun _ => 0 := rfl
@[simp] theorem softReset_h (s : State) : (softReset s).h = ⟨0, 0, 0, 0⟩ := rfl
@[simp] theorem softReset_agenda (s : State) : (softReset s).agenda = s.agenda := rfl
@[simp] theorem softReset_replies (s : State) : (softReset s).replies = s.replies := rfl
@[simp] theorem softReset_resets (s : State) : (softReset s).resets = s.resets := rfl

/-! The reset input (R340). -/

@[simp] theorem hardReset_phase (s : State) : (hardReset s).phase = .idle := rfl
@[simp] theorem hardReset_mode (s : State) : (hardReset s).mode = .plain := rfl
@[simp] theorem hardReset_dvalid (s : State) : (hardReset s).dvalid = false := rfl
@[simp] theorem hardReset_pend (s : State) : (hardReset s).pend = none := rfl
@[simp] theorem hardReset_len (s : State) : (hardReset s).len = 0 := rfl
@[simp] theorem hardReset_err (s : State) : (hardReset s).err = 0 := rfl
@[simp] theorem hardReset_ecause (s : State) : (hardReset s).ecause = 0 := rfl
@[simp] theorem hardReset_eaddr (s : State) : (hardReset s).eaddr = 0 := rfl
@[simp] theorem hardReset_edata (s : State) : (hardReset s).edata = 0 := rfl
@[simp] theorem hardReset_ien (s : State) : (hardReset s).ien = 0 := rfl
@[simp] theorem hardReset_cfg (s : State) : (hardReset s).cfg = 0 := rfl
@[simp] theorem hardReset_b64pad (s : State) : (hardReset s).b64pad = 0 := rfl
@[simp] theorem hardReset_radix (s : State) : (hardReset s).radix = 0 := rfl
@[simp] theorem hardReset_outlen (s : State) : (hardReset s).outlen = 0 := rfl
@[simp] theorem hardReset_blk (s : State) : (hardReset s).blk = zeroBlock := rfl
@[simp] theorem hardReset_key (s : State) : (hardReset s).key = zeroBlock := rfl
@[simp] theorem hardReset_alpha (s : State) :
    (hardReset s).alpha = tabulate 256 (Config.alphaAtReset (s.resets + 1)) := rfl
@[simp] theorem hardReset_out (s : State) : (hardReset s).out = tabulate 128 fun _ => 0 := rfl
@[simp] theorem hardReset_h (s : State) : (hardReset s).h = ⟨0, 0, 0, 0⟩ := rfl
@[simp] theorem hardReset_agenda (s : State) : (hardReset s).agenda = s.agenda := rfl
@[simp] theorem hardReset_replies (s : State) : (hardReset s).replies = s.replies := rfl
@[simp] theorem hardReset_resets (s : State) : (hardReset s).resets = s.resets + 1 := rfl

/-! Acceptance (R70). -/

@[simp] theorem markPending_phase (i : Instr) (s : State) : (markPending i s).phase = s.phase := rfl
@[simp] theorem markPending_mode (i : Instr) (s : State) : (markPending i s).mode = s.mode := rfl
@[simp] theorem markPending_dvalid (i : Instr) (s : State) : (markPending i s).dvalid = s.dvalid := rfl
@[simp] theorem markPending_pend (i : Instr) (s : State) :
    (markPending i s).pend = some (operationOf i) := rfl
@[simp] theorem markPending_len (i : Instr) (s : State) : (markPending i s).len = s.len := rfl
@[simp] theorem markPending_err (i : Instr) (s : State) : (markPending i s).err = s.err := rfl
@[simp] theorem markPending_ecause (i : Instr) (s : State) : (markPending i s).ecause = s.ecause := rfl
@[simp] theorem markPending_eaddr (i : Instr) (s : State) : (markPending i s).eaddr = s.eaddr := rfl
@[simp] theorem markPending_edata (i : Instr) (s : State) : (markPending i s).edata = s.edata := rfl
@[simp] theorem markPending_ien (i : Instr) (s : State) : (markPending i s).ien = s.ien := rfl
@[simp] theorem markPending_cfg (i : Instr) (s : State) : (markPending i s).cfg = s.cfg := rfl
@[simp] theorem markPending_b64pad (i : Instr) (s : State) : (markPending i s).b64pad = s.b64pad := rfl
@[simp] theorem markPending_radix (i : Instr) (s : State) : (markPending i s).radix = s.radix := rfl
@[simp] theorem markPending_outlen (i : Instr) (s : State) : (markPending i s).outlen = s.outlen := rfl
@[simp] theorem markPending_blk (i : Instr) (s : State) : (markPending i s).blk = s.blk := rfl
@[simp] theorem markPending_key (i : Instr) (s : State) : (markPending i s).key = s.key := rfl
@[simp] theorem markPending_alpha (i : Instr) (s : State) : (markPending i s).alpha = s.alpha := rfl
@[simp] theorem markPending_out (i : Instr) (s : State) : (markPending i s).out = s.out := rfl
@[simp] theorem markPending_h (i : Instr) (s : State) : (markPending i s).h = s.h := rfl
@[simp] theorem markPending_agenda (i : Instr) (s : State) : (markPending i s).agenda = s.agenda := rfl
@[simp] theorem markPending_replies (i : Instr) (s : State) : (markPending i s).replies = s.replies := rfl
@[simp] theorem markPending_resets (i : Instr) (s : State) : (markPending i s).resets = s.resets := rfl

/-! A reply (R62). -/

@[simp] theorem reply_phase (r : Reply) (s : State) : (reply r s).phase = s.phase := rfl
@[simp] theorem reply_mode (r : Reply) (s : State) : (reply r s).mode = s.mode := rfl
@[simp] theorem reply_dvalid (r : Reply) (s : State) : (reply r s).dvalid = s.dvalid := rfl
@[simp] theorem reply_pend (r : Reply) (s : State) : (reply r s).pend = s.pend := rfl
@[simp] theorem reply_len (r : Reply) (s : State) : (reply r s).len = s.len := rfl
@[simp] theorem reply_err (r : Reply) (s : State) : (reply r s).err = s.err := rfl
@[simp] theorem reply_ecause (r : Reply) (s : State) : (reply r s).ecause = s.ecause := rfl
@[simp] theorem reply_eaddr (r : Reply) (s : State) : (reply r s).eaddr = s.eaddr := rfl
@[simp] theorem reply_edata (r : Reply) (s : State) : (reply r s).edata = s.edata := rfl
@[simp] theorem reply_ien (r : Reply) (s : State) : (reply r s).ien = s.ien := rfl
@[simp] theorem reply_cfg (r : Reply) (s : State) : (reply r s).cfg = s.cfg := rfl
@[simp] theorem reply_b64pad (r : Reply) (s : State) : (reply r s).b64pad = s.b64pad := rfl
@[simp] theorem reply_radix (r : Reply) (s : State) : (reply r s).radix = s.radix := rfl
@[simp] theorem reply_outlen (r : Reply) (s : State) : (reply r s).outlen = s.outlen := rfl
@[simp] theorem reply_blk (r : Reply) (s : State) : (reply r s).blk = s.blk := rfl
@[simp] theorem reply_key (r : Reply) (s : State) : (reply r s).key = s.key := rfl
@[simp] theorem reply_alpha (r : Reply) (s : State) : (reply r s).alpha = s.alpha := rfl
@[simp] theorem reply_out (r : Reply) (s : State) : (reply r s).out = s.out := rfl
@[simp] theorem reply_h (r : Reply) (s : State) : (reply r s).h = s.h := rfl
@[simp] theorem reply_agenda (r : Reply) (s : State) : (reply r s).agenda = s.agenda := rfl
@[simp] theorem reply_replies (r : Reply) (s : State) : (reply r s).replies = r :: s.replies := rfl
@[simp] theorem reply_resets (r : Reply) (s : State) : (reply r s).resets = s.resets := rfl

/-! An encoder's output (R221). -/

@[simp] theorem storeOut_phase (cs : List Code) (s : State) : (storeOut cs s).phase = s.phase := rfl
@[simp] theorem storeOut_mode (cs : List Code) (s : State) : (storeOut cs s).mode = s.mode := rfl
@[simp] theorem storeOut_dvalid (cs : List Code) (s : State) : (storeOut cs s).dvalid = s.dvalid := rfl
@[simp] theorem storeOut_pend (cs : List Code) (s : State) : (storeOut cs s).pend = s.pend := rfl
@[simp] theorem storeOut_len (cs : List Code) (s : State) : (storeOut cs s).len = s.len := rfl
@[simp] theorem storeOut_err (cs : List Code) (s : State) : (storeOut cs s).err = s.err := rfl
@[simp] theorem storeOut_ecause (cs : List Code) (s : State) : (storeOut cs s).ecause = s.ecause := rfl
@[simp] theorem storeOut_eaddr (cs : List Code) (s : State) : (storeOut cs s).eaddr = s.eaddr := rfl
@[simp] theorem storeOut_edata (cs : List Code) (s : State) : (storeOut cs s).edata = s.edata := rfl
@[simp] theorem storeOut_ien (cs : List Code) (s : State) : (storeOut cs s).ien = s.ien := rfl
@[simp] theorem storeOut_cfg (cs : List Code) (s : State) : (storeOut cs s).cfg = s.cfg := rfl
@[simp] theorem storeOut_b64pad (cs : List Code) (s : State) : (storeOut cs s).b64pad = s.b64pad := rfl
@[simp] theorem storeOut_radix (cs : List Code) (s : State) : (storeOut cs s).radix = s.radix := rfl
@[simp] theorem storeOut_outlen (cs : List Code) (s : State) :
    (storeOut cs s).outlen = BitVec.ofNat 8 cs.length := rfl
@[simp] theorem storeOut_blk (cs : List Code) (s : State) : (storeOut cs s).blk = s.blk := rfl
@[simp] theorem storeOut_key (cs : List Code) (s : State) : (storeOut cs s).key = s.key := rfl
@[simp] theorem storeOut_alpha (cs : List Code) (s : State) : (storeOut cs s).alpha = s.alpha := rfl
@[simp] theorem storeOut_out (cs : List Code) (s : State) : (storeOut cs s).out = overlay cs s.out := rfl
@[simp] theorem storeOut_h (cs : List Code) (s : State) : (storeOut cs s).h = s.h := rfl
@[simp] theorem storeOut_agenda (cs : List Code) (s : State) : (storeOut cs s).agenda = s.agenda := rfl
@[simp] theorem storeOut_replies (cs : List Code) (s : State) : (storeOut cs s).replies = s.replies := rfl
@[simp] theorem storeOut_resets (cs : List Code) (s : State) : (storeOut cs s).resets = s.resets := rfl

/-! A fresh context (R176, R202). -/

@[simp] theorem openContext_phase (m : Mode) (p : Phase) (s : State) : (openContext m p s).phase = p := rfl
@[simp] theorem openContext_mode (m : Mode) (p : Phase) (s : State) : (openContext m p s).mode = m := rfl
@[simp] theorem openContext_dvalid (m : Mode) (p : Phase) (s : State) :
    (openContext m p s).dvalid = false := rfl
@[simp] theorem openContext_pend (m : Mode) (p : Phase) (s : State) :
    (openContext m p s).pend = s.pend := rfl
@[simp] theorem openContext_len (m : Mode) (p : Phase) (s : State) : (openContext m p s).len = 0 := rfl
@[simp] theorem openContext_err (m : Mode) (p : Phase) (s : State) : (openContext m p s).err = s.err := rfl
@[simp] theorem openContext_ecause (m : Mode) (p : Phase) (s : State) :
    (openContext m p s).ecause = s.ecause := rfl
@[simp] theorem openContext_eaddr (m : Mode) (p : Phase) (s : State) :
    (openContext m p s).eaddr = s.eaddr := rfl
@[simp] theorem openContext_edata (m : Mode) (p : Phase) (s : State) :
    (openContext m p s).edata = s.edata := rfl
@[simp] theorem openContext_ien (m : Mode) (p : Phase) (s : State) : (openContext m p s).ien = s.ien := rfl
@[simp] theorem openContext_cfg (m : Mode) (p : Phase) (s : State) : (openContext m p s).cfg = s.cfg := rfl
@[simp] theorem openContext_b64pad (m : Mode) (p : Phase) (s : State) :
    (openContext m p s).b64pad = s.b64pad := rfl
@[simp] theorem openContext_radix (m : Mode) (p : Phase) (s : State) :
    (openContext m p s).radix = s.radix := rfl
@[simp] theorem openContext_outlen (m : Mode) (p : Phase) (s : State) :
    (openContext m p s).outlen = 0 := rfl
@[simp] theorem openContext_blk (m : Mode) (p : Phase) (s : State) :
    (openContext m p s).blk = zeroBlock := rfl
@[simp] theorem openContext_key (m : Mode) (p : Phase) (s : State) :
    (openContext m p s).key = zeroBlock := rfl
@[simp] theorem openContext_alpha (m : Mode) (p : Phase) (s : State) :
    (openContext m p s).alpha = s.alpha := rfl
@[simp] theorem openContext_out (m : Mode) (p : Phase) (s : State) : (openContext m p s).out = s.out := rfl
@[simp] theorem openContext_h (m : Mode) (p : Phase) (s : State) : (openContext m p s).h = iv := rfl
@[simp] theorem openContext_agenda (m : Mode) (p : Phase) (s : State) :
    (openContext m p s).agenda = s.agenda := rfl
@[simp] theorem openContext_replies (m : Mode) (p : Phase) (s : State) :
    (openContext m p s).replies = s.replies := rfl
@[simp] theorem openContext_resets (m : Mode) (p : Phase) (s : State) :
    (openContext m p s).resets = s.resets := rfl

/-! One absorbed byte (R144). -/

@[simp] theorem absorb_phase (b : Byte) (s : State) : (absorb b s).phase = s.phase := rfl
@[simp] theorem absorb_mode (b : Byte) (s : State) : (absorb b s).mode = s.mode := rfl
@[simp] theorem absorb_dvalid (b : Byte) (s : State) : (absorb b s).dvalid = s.dvalid := rfl
@[simp] theorem absorb_pend (b : Byte) (s : State) : (absorb b s).pend = s.pend := rfl
@[simp] theorem absorb_len (b : Byte) (s : State) : (absorb b s).len = s.len + 1 := rfl
@[simp] theorem absorb_err (b : Byte) (s : State) : (absorb b s).err = s.err := rfl
@[simp] theorem absorb_ecause (b : Byte) (s : State) : (absorb b s).ecause = s.ecause := rfl
@[simp] theorem absorb_eaddr (b : Byte) (s : State) : (absorb b s).eaddr = s.eaddr := rfl
@[simp] theorem absorb_edata (b : Byte) (s : State) : (absorb b s).edata = s.edata := rfl
@[simp] theorem absorb_ien (b : Byte) (s : State) : (absorb b s).ien = s.ien := rfl
@[simp] theorem absorb_cfg (b : Byte) (s : State) : (absorb b s).cfg = s.cfg := rfl
@[simp] theorem absorb_b64pad (b : Byte) (s : State) : (absorb b s).b64pad = s.b64pad := rfl
@[simp] theorem absorb_radix (b : Byte) (s : State) : (absorb b s).radix = s.radix := rfl
@[simp] theorem absorb_outlen (b : Byte) (s : State) : (absorb b s).outlen = s.outlen := rfl
theorem absorb_blk (b : Byte) (s : State) :
    (absorb b s).blk = if s.fillsBlock then zeroBlock else s.blkWith b := rfl
@[simp] theorem absorb_key (b : Byte) (s : State) : (absorb b s).key = keepKeyByte b s := rfl
@[simp] theorem absorb_alpha (b : Byte) (s : State) : (absorb b s).alpha = s.alpha := rfl
@[simp] theorem absorb_out (b : Byte) (s : State) : (absorb b s).out = s.out := rfl
theorem absorb_h (b : Byte) (s : State) :
    (absorb b s).h = if s.fillsBlock then compress s.h (s.blkWith b) else s.h := rfl
@[simp] theorem absorb_agenda (b : Byte) (s : State) : (absorb b s).agenda = s.agenda := rfl
@[simp] theorem absorb_replies (b : Byte) (s : State) : (absorb b s).replies = s.replies := rfl
@[simp] theorem absorb_resets (b : Byte) (s : State) : (absorb b s).resets = s.resets := rfl

/-! The padding action (R177). -/

@[simp] theorem finish_phase (s : State) : (finish s).phase = s.phase := rfl
@[simp] theorem finish_mode (s : State) : (finish s).mode = s.mode := rfl
@[simp] theorem finish_dvalid (s : State) : (finish s).dvalid = s.dvalid := rfl
@[simp] theorem finish_pend (s : State) : (finish s).pend = s.pend := rfl
@[simp] theorem finish_len (s : State) : (finish s).len = s.len := rfl
@[simp] theorem finish_err (s : State) : (finish s).err = s.err := rfl
@[simp] theorem finish_ecause (s : State) : (finish s).ecause = s.ecause := rfl
@[simp] theorem finish_eaddr (s : State) : (finish s).eaddr = s.eaddr := rfl
@[simp] theorem finish_edata (s : State) : (finish s).edata = s.edata := rfl
@[simp] theorem finish_ien (s : State) : (finish s).ien = s.ien := rfl
@[simp] theorem finish_cfg (s : State) : (finish s).cfg = s.cfg := rfl
@[simp] theorem finish_b64pad (s : State) : (finish s).b64pad = s.b64pad := rfl
@[simp] theorem finish_radix (s : State) : (finish s).radix = s.radix := rfl
@[simp] theorem finish_outlen (s : State) : (finish s).outlen = s.outlen := rfl
@[simp] theorem finish_blk (s : State) : (finish s).blk = zeroBlock := rfl
@[simp] theorem finish_key (s : State) : (finish s).key = s.key := rfl
@[simp] theorem finish_alpha (s : State) : (finish s).alpha = s.alpha := rfl
@[simp] theorem finish_out (s : State) : (finish s).out = s.out := rfl
@[simp] theorem finish_h (s : State) : (finish s).h = finishH s := rfl
@[simp] theorem finish_agenda (s : State) : (finish s).agenda = s.agenda := rfl
@[simp] theorem finish_replies (s : State) : (finish s).replies = s.replies := rfl
@[simp] theorem finish_resets (s : State) : (finish s).resets = s.resets := rfl

/-! The completion of KDONE (R204). -/

@[simp] theorem completeKdone_phase (s : State) : (completeKdone s).phase = .msg := rfl
@[simp] theorem completeKdone_mode (s : State) : (completeKdone s).mode = s.mode := rfl
@[simp] theorem completeKdone_dvalid (s : State) : (completeKdone s).dvalid = s.dvalid := rfl
@[simp] theorem completeKdone_pend (s : State) : (completeKdone s).pend = s.pend := rfl
@[simp] theorem completeKdone_len (s : State) : (completeKdone s).len = 64 := rfl
@[simp] theorem completeKdone_err (s : State) : (completeKdone s).err = s.err := rfl
@[simp] theorem completeKdone_ecause (s : State) : (completeKdone s).ecause = s.ecause := rfl
@[simp] theorem completeKdone_eaddr (s : State) : (completeKdone s).eaddr = s.eaddr := rfl
@[simp] theorem completeKdone_edata (s : State) : (completeKdone s).edata = s.edata := rfl
@[simp] theorem completeKdone_ien (s : State) : (completeKdone s).ien = s.ien := rfl
@[simp] theorem completeKdone_cfg (s : State) : (completeKdone s).cfg = s.cfg := rfl
@[simp] theorem completeKdone_b64pad (s : State) : (completeKdone s).b64pad = s.b64pad := rfl
@[simp] theorem completeKdone_radix (s : State) : (completeKdone s).radix = s.radix := rfl
@[simp] theorem completeKdone_outlen (s : State) : (completeKdone s).outlen = s.outlen := rfl
@[simp] theorem completeKdone_blk (s : State) : (completeKdone s).blk = zeroBlock := rfl
@[simp] theorem completeKdone_key (s : State) : (completeKdone s).key = normalisedKey s := rfl
@[simp] theorem completeKdone_alpha (s : State) : (completeKdone s).alpha = s.alpha := rfl
@[simp] theorem completeKdone_out (s : State) : (completeKdone s).out = s.out := rfl
@[simp] theorem completeKdone_h (s : State) :
    (completeKdone s).h = compress iv (xorBlock (normalisedKey s) ipadWord) := rfl
@[simp] theorem completeKdone_agenda (s : State) : (completeKdone s).agenda = s.agenda := rfl
@[simp] theorem completeKdone_replies (s : State) : (completeKdone s).replies = s.replies := rfl
@[simp] theorem completeKdone_resets (s : State) : (completeKdone s).resets = s.resets := rfl

/-! The completion of FINAL (R178). -/

@[simp] theorem completeFinal_phase (s : State) : (completeFinal s).phase = .idle := rfl
@[simp] theorem completeFinal_mode (s : State) : (completeFinal s).mode = s.mode := rfl
@[simp] theorem completeFinal_dvalid (s : State) : (completeFinal s).dvalid = true := rfl
@[simp] theorem completeFinal_pend (s : State) : (completeFinal s).pend = s.pend := rfl
@[simp] theorem completeFinal_len (s : State) : (completeFinal s).len = s.len := rfl
@[simp] theorem completeFinal_err (s : State) : (completeFinal s).err = s.err := rfl
@[simp] theorem completeFinal_ecause (s : State) : (completeFinal s).ecause = s.ecause := rfl
@[simp] theorem completeFinal_eaddr (s : State) : (completeFinal s).eaddr = s.eaddr := rfl
@[simp] theorem completeFinal_edata (s : State) : (completeFinal s).edata = s.edata := rfl
@[simp] theorem completeFinal_ien (s : State) : (completeFinal s).ien = s.ien := rfl
@[simp] theorem completeFinal_cfg (s : State) : (completeFinal s).cfg = s.cfg := rfl
@[simp] theorem completeFinal_b64pad (s : State) : (completeFinal s).b64pad = s.b64pad := rfl
@[simp] theorem completeFinal_radix (s : State) : (completeFinal s).radix = s.radix := rfl
@[simp] theorem completeFinal_outlen (s : State) : (completeFinal s).outlen = s.outlen := rfl
@[simp] theorem completeFinal_blk (s : State) : (completeFinal s).blk = zeroBlock := rfl
@[simp] theorem completeFinal_key (s : State) : (completeFinal s).key = zeroBlock := rfl
@[simp] theorem completeFinal_alpha (s : State) : (completeFinal s).alpha = s.alpha := rfl
@[simp] theorem completeFinal_out (s : State) : (completeFinal s).out = s.out := rfl
@[simp] theorem completeFinal_h (s : State) : (completeFinal s).h = finalDigest s := rfl
@[simp] theorem completeFinal_agenda (s : State) : (completeFinal s).agenda = s.agenda := rfl
@[simp] theorem completeFinal_replies (s : State) : (completeFinal s).replies = s.replies := rfl
@[simp] theorem completeFinal_resets (s : State) : (completeFinal s).resets = s.resets := rfl

end Sys2Proof.Machine
end

