-- ==== Sys2Proof/Laws/Packer.lean ====
section
/-! SUPPORT. Bytes of words and blocks, and what `absorb` leaves alone. -/

namespace Sys2Proof.Machine

@[simp] theorem tabulate_getElem {α : Type} {n : Nat} (f : Nat → α) (i : Nat) (h : i < n) :
    (tabulate n f)[i] = f i := by simp [tabulate]

@[simp] theorem tabulate_get {α : Type} {n : Nat} (f : Nat → α) (i : Fin n) :
    (tabulate n f).get i = f i.val := by simp [Vector.get_eq_getElem]

theorem byteOf_zero (k : Nat) : byteOf 0#32 k = 0#8 := by simp [byteOf]

theorem byteOf_or (x y : Word) (k : Nat) : byteOf (x ||| y) k = byteOf x k ||| byteOf y k := by
  apply BitVec.eq_of_getLsbD_eq
  intro j hj
  simp [byteOf, hj]

theorem byteOf_byteAt (b : Byte) {j k : Nat} (hj : j < 4) :
    byteOf (byteAt b k) j = if j = k then b else 0 := by
  apply BitVec.eq_of_getLsbD_eq
  intro n hn
  have hlt : 8 * j + n < 32 := by omega
  split
  · subst_vars
    simp [byteOf, byteAt, hn, hlt]
  · simp only [byteOf, byteAt, BitVec.getLsbD_extractLsb', BitVec.getLsbD_shiftLeft,
      BitVec.getLsbD_setWidth, hn, hlt]
    by_cases h : 8 * j + n < 8 * k
    · simp [h]
    · have : b.getLsbD (8 * j + n - 8 * k) = false := BitVec.getLsbD_of_ge _ _ (by omega)
      simp [this]

@[simp] theorem blockByte_zeroBlock (p : Fin 64) : blockByte zeroBlock p = 0 := by
  simp [blockByte, zeroBlock, byteOf_zero]

/-- OR-ing a byte into a block changes that byte only. -/
theorem blockByte_orByte (blk : Vector Word 16) (p q : Fin 64) (b : Byte) :
    blockByte (orByte blk p b) q = if q = p then blockByte blk p ||| b else blockByte blk q := by
  have hq : q.val % 4 < 4 := by omega
  unfold blockByte orByte
  by_cases hw : wordIndex q = wordIndex p
  · have hv : q.val / 4 = p.val / 4 := by simpa [wordIndex] using congrArg Fin.val hw
    rw [hw]
    simp only [Vector.get_eq_getElem, Vector.getElem_set_self, byteOf_or, byteOf_byteAt b hq]
    by_cases h : q = p
    · subst h; simp
    · have : q.val % 4 ≠ p.val % 4 := by
        intro he
        exact h (Fin.ext (by omega))
      simp [h, this]
  · have h : q ≠ p := fun h => hw (by rw [h])
    have hne : (wordIndex p).val ≠ (wordIndex q).val := fun he => hw (Fin.ext he.symm)
    simp only [Vector.get_eq_getElem, Vector.getElem_set_ne _ _ hne, h, if_false]

/-- `LEN + 1` does not wrap below the limit. -/
theorem len_succ_toNat {s : State} (h : s.len.toNat + 1 < 2 ^ 32) :
    (s.len + 1).toNat = s.len.toNat + 1 := by
  rw [BitVec.toNat_add]
  exact Nat.mod_eq_of_lt h

theorem fillsBlock_iff {s : State} (h : s.len.toNat + 1 < 2 ^ 32) :
    s.fillsBlock = true ↔ s.len.toNat % 64 = 63 := by
  simp only [State.fillsBlock, len_succ_toNat h, decide_eq_true_eq]
  omega

theorem absorbAll_nil (s : State) : absorbAll [] s = s := rfl

theorem absorbAll_cons (b : Byte) (bs : List Byte) (s : State) :
    absorbAll (b :: bs) s = absorbAll bs (absorb b s) := rfl

theorem absorbAll_append (bs cs : List Byte) (s : State) :
    absorbAll (bs ++ cs) s = absorbAll cs (absorbAll bs s) := by
  simp [absorbAll, List.foldl_append]

/-- `absorb` keeps the rest of the block zero (R46 (vi)). -/
theorem absorb_tail_zero (b : Byte) (s : State) (hlen : s.len.toNat + 1 < 2 ^ 32)
    (h : ∀ p : Fin 64, s.len.toNat % 64 ≤ p.val → blockByte s.blk p = 0) (p : Fin 64)
    (hp : (absorb b s).len.toNat % 64 ≤ p.val) : blockByte (absorb b s).blk p = 0 := by
  rw [absorb_len, len_succ_toNat hlen] at hp
  rw [absorb_blk]
  split
  · simp
  · next hf =>
    rw [fillsBlock_iff hlen] at hf
    rw [State.blkWith, blockByte_orByte]
    have hne : p ≠ s.fill := by
      intro he
      have : p.val = s.len.toNat % 64 := by rw [he]; rfl
      omega
    rw [if_neg hne]
    exact h p (by omega)

end Sys2Proof.Machine
end

