-- ==== Sys2Proof/Laws/Decode.lean ====
section
/-! SUPPORT. Field extraction from an encoded word, and a decoded word encoded again. -/

namespace Sys2Proof

theorem opcodeField_formatC0 (op : Byte) : opcodeField (formatC0 op) = op := by
  apply BitVec.eq_of_getLsbD_eq
  intro j hj
  have : j < 32 := by omega
  simp [opcodeField, formatC0, hj, this]

theorem reserved_formatC0 (op : Byte) : (formatC0 op).extractLsb' 8 24 = 0 := by
  apply BitVec.eq_of_getLsbD_eq
  intro j hj
  simp [formatC0]

theorem opcodeField_formatC1 (op b : Byte) : opcodeField (formatC1 op b) = op := by
  apply BitVec.eq_of_getLsbD_eq
  intro j hj
  simp [opcodeField, formatC1, hj]
  omega

theorem imm8Field_formatC1 (op b : Byte) : imm8Field (formatC1 op b) = b := by
  apply BitVec.eq_of_getLsbD_eq
  intro j hj
  have : 8 + j < 32 := by omega
  simp [imm8Field, formatC1, hj, this]

theorem reserved_formatC1 (op b : Byte) : (formatC1 op b).extractLsb' 16 16 = 0 := by
  apply BitVec.eq_of_getLsbD_eq
  intro j hj
  simp [formatC1, BitVec.getLsbD_of_ge b (16 + j - 8) (by omega), BitVec.getLsbD_of_ge op (16 + j) (by omega)]

/-- A word of format C0 is its opcode alone. -/
theorem eq_formatC0 {w : Word} (h : w.extractLsb' 8 24 = 0) : w = formatC0 (opcodeField w) := by
  apply BitVec.eq_of_getLsbD_eq
  intro j hj
  by_cases h8 : j < 8
  · simp [formatC0, opcodeField, h8, hj]
  · have := congrArg (fun v => v.getLsbD (j - 8)) h
    have h24 : j - 8 < 24 := by omega
    have hj8 : 8 + (j - 8) = j := by omega
    simp [h24, hj8] at this
    simp [formatC0, opcodeField, h8, this]

/-- A word of format C1 is its opcode and its byte. -/
theorem eq_formatC1 {w : Word} (h : w.extractLsb' 16 16 = 0) :
    w = formatC1 (opcodeField w) (imm8Field w) := by
  apply BitVec.eq_of_getLsbD_eq
  intro j hj
  by_cases h8 : j < 8
  · simp [formatC1, opcodeField, h8, hj]
  · by_cases h16 : j < 16
    · have h1 : j - 8 < 8 := by omega
      have h2 : 8 + (j - 8) = j := by omega
      simp [formatC1, opcodeField, imm8Field, h8, hj, h1, h2]
    · have := congrArg (fun v => v.getLsbD (j - 16)) h
      have h24 : j - 16 < 16 := by omega
      have hj8 : 16 + (j - 16) = j := by omega
      simp [h24, hj8] at this
      have h1 : ¬ j - 8 < 8 := by omega
      simp [formatC1, opcodeField, imm8Field, h8, this, h1]

theorem plainCommand_encode {op : Byte} {i : Instr} (h : plainCommand op = some i) :
    encode i = formatC0 op ∧ portOf i = .cmd := by
  unfold plainCommand at h
  repeat' split at h
  all_goals first
    | (injection h with h; subst h; subst_vars; exact ⟨rfl, rfl⟩)
    | exact absurd h (by simp)

end Sys2Proof
end

