-- ==== Sys2Proof/Laws/PerInstr.lean ====
section
/-! SUPPORT. The per-instruction family RoundTrip: the word of an instruction, written to its port, decodes
to it (spec 30_encoding.md R96, R98). -/

namespace Sys2Proof.Laws.RoundTrip

def Statement (i : Instr) : Prop := decodeAt (portOf i) (encode i) = .ok i

theorem nop : Statement .nop := rfl

theorem hinit : Statement .hinit := rfl

theorem kinit : Statement .kinit := rfl

theorem kdone : Statement .kdone := rfl

theorem pushb (imm8 : Byte) : Statement (.pushb imm8) := by
  simp [Statement, portOf, encode, decodeAt, decodeCmd, opcodeField_formatC1, reserved_formatC1,
    imm8Field_formatC1]

theorem final : Statement .final := rfl

theorem ehex : Statement .ehex := rfl

theorem eb64 : Statement .eb64 := rfl

theorem erdx : Statement .erdx := rfl

theorem clrf : Statement .clrf := rfl

theorem srst : Statement .srst := rfl

theorem dinw (data : Word) : Statement (.dinw data) := rfl

end Sys2Proof.Laws.RoundTrip
end

