-- ==== Sys2Proof/Laws/Ops.lean ====
section
/-! SUPPORT. What the shared operations can do: acceptance, `perform`, `issue`, the engine step. -/

namespace Sys2Proof.Machine

theorem busy_eq_false_iff (s : State) : s.busy = false ↔ s.pend = none := by
  cases h : s.pend <;> simp [State.busy, h]

theorem acceptance_of_busy {i : Instr} {s : State} (hi : i ≠ .srst) (hb : s.pend ≠ none) :
    acceptance i s = some .busy := by
  have : s.busy = true := by
    cases h : s.pend with
    | none => exact absurd h hb
    | some op => simp [State.busy, h]
  simp [acceptance, hi, this]

theorem acceptance_none_iff {i : Instr} {s : State} (hi : i ≠ .srst) :
    acceptance i s = none ↔
      s.pend = none ∧ legalNow i s = true ∧ overflowsLen i s = false ∧ refusesRadix i s = false := by
  rw [← busy_eq_false_iff]
  unfold acceptance
  cases s.busy <;> cases legalNow i s <;> cases overflowsLen i s <;> cases refusesRadix i s <;> simp [hi]

/-- Every instruction is `perform` over its completion. -/
theorem exec_eq_perform (i : Instr) (s : State) : exec i s = perform i (completion i) s := by
  cases i <;> rfl

theorem exec_srst (s : State) : exec .srst s = .next (softReset s) := rfl

theorem perform_accepted {i : Instr} {s : State} (f : State → State) (h : acceptance i s = none) :
    perform i f s = .next (retire f (markPending i s)) := by simp [perform, h]

theorem perform_trapped {i : Instr} {s : State} {c : Cause} (f : State → State)
    (h : acceptance i s = some c) : perform i f s = .next (raiseFor i c s) := by simp [perform, h]

theorem exec_accepted {i : Instr} {s : State} (h : acceptance i s = none) :
    exec i s = .next (retire (completion i) (markPending i s)) := by
  rw [exec_eq_perform, perform_accepted _ h]

theorem exec_trapped {i : Instr} {s : State} {c : Cause} (h : acceptance i s = some c) :
    exec i s = .next (raiseFor i c s) := by
  rw [exec_eq_perform, perform_trapped _ h]

/-- All an instruction can do: trap or complete. -/
theorem exec_cases (i : Instr) (s : State) :
    (∃ c, acceptance i s = some c ∧ exec i s = .next (raiseFor i c s)) ∨
    (acceptance i s = none ∧ exec i s = .next (retire (completion i) (markPending i s))) := by
  cases h : acceptance i s with
  | none => exact .inr ⟨rfl, exec_accepted h⟩
  | some c => exact .inl ⟨c, rfl, exec_trapped h⟩

theorem issue_srst (s : State) : issue .srst s = softReset s := by simp [issue]

theorem issue_accepted {i : Instr} {s : State} (hi : i ≠ .srst) (h : acceptance i s = none) :
    issue i s = markPending i s := by simp [issue, hi, h]

theorem issue_trapped {i : Instr} {s : State} {c : Cause} (hi : i ≠ .srst)
    (h : acceptance i s = some c) : issue i s = raiseFor i c s := by simp [issue, hi, h]

theorem engineStep_idle {s : State} (h : s.pend = none) : engineStep s = .next s := by
  simp [engineStep, h]

theorem engineStep_pending {s : State} {op : Operation} {i : Instr} (h : s.pend = some op)
    (hi : pendingInstr op = .ok i) : engineStep s = .next (retire (completion i) s) := by
  simp [engineStep, h, hi]

theorem absorbAll_pend_none (bs : List Byte) :
    ∀ s : State, { absorbAll bs s with pend := none } = absorbAll bs { s with pend := none } := by
  induction bs with
  | nil => intro s; rfl
  | cons b bs ih => intro s; rw [absorbAll_cons, ih]; rfl

/-- A completion neither reads nor writes `PEND`. -/
theorem retire_completion (i : Instr) (s : State) :
    retire (completion i) s = completion i { s with pend := none } := by
  cases i with
  | dinw w => exact absorbAll_pend_none _ s
  | _ => rfl

/-- An accepted instruction is its completion. -/
theorem exec_eq_completion {i : Instr} {s : State} (hp : s.pend = none)
    (h : acceptance i s = none) : exec i s = .next (completion i s) := by
  have hs : ({ s with pend := none } : State) = s := by rw [← hp]
  rw [exec_accepted h, retire_completion]
  exact congrArg (fun t => Host.Outcome.next (completion i t)) hs

/-- What pends for an instruction decodes to it. -/
theorem pendingInstr_operationOf (i : Instr) : pendingInstr (operationOf i) = .ok i := by
  cases i with
  | pushb b => exact Laws.RoundTrip.pushb b
  | _ => rfl

theorem acceptance_clear_pend {i : Instr} {s : State} (h : acceptance i s = none) (hi : i ≠ .srst) :
    acceptance i { s with pend := none } = none := by
  have hs : ({ s with pend := none } : State) = s := by rw [← ((acceptance_none_iff hi).1 h).1]
  rwa [hs]

end Sys2Proof.Machine
end

