-- ==== Sys2Proof/Laws/Bus.lean ====
section
/-! SUPPORT. What the two bus transactions do at the offsets of the aperture. -/

namespace Sys2Proof.Machine

/-- The map of R92 and the offsets of R92 agree. -/
theorem regAt_offset (r : Reg) : regAt r.offset = some r := by
  cases r with
  | h i => revert i; decide
  | alpha i => revert i; decide +kernel
  | out i => revert i; decide +kernel
  | _ => decide

/-- A mapped offset is the offset of its register. -/
theorem offset_of_regAt : ∀ (off : Offset) (r : Reg), regAt off = some r → off = r.offset := by
  decide +kernel

theorem accessRefused_read {r : Reg} (h : r.readable = true) :
    accessRefused r.offset .word false = false := by
  simp [accessRefused, regAt_offset, h]

theorem accessRefused_write {r : Reg} (h : r.writable = true) :
    accessRefused r.offset .word true = false := by
  simp [accessRefused, regAt_offset, h]

/-- A legal read (R71). -/
theorem busRead_reg {r : Reg} (h : r.readable = true) (s : State) :
    busRead r.offset .word s = reply (.ofRead (readReg s r) .okay) s := by
  simp [busRead, accessRefused_read h, readAt, regAt_offset]

/-- A write that the aperture lets through (R70 step 2). -/
theorem busWrite_reg {r : Reg} (h : r.writable = true) (d : Word) (lat : Latency) (s : State) :
    busWrite r.offset .word d lat s = withReply (.ofWrite .okay) (writeReg r r.offset d lat s) := by
  simp [busWrite, accessRefused_write h, regAt_offset]

theorem writeConfigReg_idle {s : State} (h : s.pend = none) (r : Reg) (off : Offset) (d : Word) :
    writeConfigReg r off d s = writeConfig r d s := by
  simp [writeConfigReg, (busy_eq_false_iff s).2 h]

/-- The stored field of a configuration write, read back (R66): the data with the ignored bits 0. -/
theorem stored_field (data : Word) (k : Nat) (m : Word) (h : ∀ j < 32, m.getLsbD j = decide (j < k)) :
    (data.extractLsb' 0 k).setWidth 32 = data &&& m := by
  apply BitVec.eq_of_getLsbD_eq
  intro j hj
  rw [BitVec.getLsbD_and, h j hj]
  by_cases hk : j < k <;> simp [hk, hj]

end Sys2Proof.Machine
end

