-- ==== Sys2Proof/Laws/Encoders.lean ====
section
/-! SUPPORT. How long the encoders' outputs are. -/

namespace Sys2Proof.Machine

theorem limbs_length : ∀ bs : List Byte, (limbs bs).length = bs.length / 2
  | [] => rfl
  | [_] => by simp [limbs]
  | _ :: _ :: r => by simp [limbs, limbs_length r]; omega

theorem remainders_length (r n : Nat) : ∀ ds, (remainders r n ds).length = n := by
  induction n with
  | zero => intro; rfl
  | succ n ih => intro ds; simp [remainders, ih]

theorem lookupLength_le (r m : Nat) :
    ∀ rows : List (Nat × Nat), (∀ p ∈ rows, p.2 ≤ m) → lookupLength r rows ≤ m
  | [], _ => Nat.zero_le _
  | (t, l) :: rest, h => by
    unfold lookupLength
    split
    · exact h (t, l) (by simp)
    · exact lookupLength_le r m rest fun p hp => h p (by simp [hp])

/-- No row of R244 exceeds the 128 entries of `OUT`. -/
theorem radixLength_le (r : Nat) : radixLength r ≤ 128 := lookupLength_le r 128 _ (by decide)

theorem radixDigits_length (r : Nat) (bs : List Byte) : (radixDigits r bs).length = radixLength r := by
  simp [radixDigits, remainders_length]

theorem toHex_length (u : Bool) (bs : List Byte) : (toHex u bs).length = 2 * bs.length := by
  induction bs with
  | nil => rfl
  | cons b bs ih => simp [toHex, hexByte] at *; omega

/-- The sixteen digest bytes one by one (R74). -/
theorem quad_bytes (q : Quad) : q.bytes =
    [byteOf q.a 0, byteOf q.a 1, byteOf q.a 2, byteOf q.a 3] ++
      [byteOf q.b 0, byteOf q.b 1, byteOf q.b 2, byteOf q.b 3] ++
      [byteOf q.c 0, byteOf q.c 1, byteOf q.c 2, byteOf q.c 3] ++
      [byteOf q.d 0, byteOf q.d 1, byteOf q.d 2, byteOf q.d 3] := rfl

@[simp] theorem quad_bytes_length (q : Quad) : q.bytes.length = 16 := rfl

/-- R232: 24 characters with the pad, 22 without. -/
theorem toBase64_digest_length (p : Option Code) (q : Quad) :
    (toBase64 p q.bytes).length = if p.isSome then 24 else 22 := by
  rw [quad_bytes]
  cases p <;> simp [toBase64, b64Group, b64Char, padString]

end Sys2Proof.Machine
end

