-- ==== Sys2Proof/Laws/Host.lean ====
section
/-! SUPPORT. The whole-message functions within their domain, and how the host's programs are put together. -/

namespace Sys2Proof.Machine

/-- Within R175's domain md5 is the padded message's digest. -/
theorem md5_of_le {m : List Byte} (h : m.length ≤ Config.lenMax) : md5 m = paddedDigest m := if_pos h

/-- Beyond it the digest is the free value. -/
theorem md5_of_gt {m : List Byte} (h : Config.lenMax < m.length) : md5 m = overlongDigest m :=
  if_neg (Nat.not_le.2 h)

theorem alphaTurns_length (chars : List Code) : ∀ n, (alphaTurns n chars).length = chars.length := by
  induction chars with
  | nil => intro _; rfl
  | cons c rest ih => intro n; simp [alphaTurns, ih]

/-- Entry `i` of the alphabet is written to `ALPHA[n + i]`. -/
theorem alphaTurns_getElem? (chars : List Code) : ∀ n i, (alphaTurns n chars)[i]? =
    (chars[i]?).map fun c => wr (.alpha (Fin.ofNat 256 (n + i))) (c.setWidth 32) := by
  induction chars with
  | nil => intro _ _; rfl
  | cons c rest ih =>
    intro n i
    cases i with
    | zero => rfl
    | succ i => simp [alphaTurns, ih, Nat.add_comm 1 i, Nat.add_assoc]

theorem setAlpha_of_le {chars : List Code} (h : chars.length ≤ Config.radixMax) :
    setAlpha chars = .ok (wr .radix (BitVec.ofNat 32 chars.length) :: alphaTurns 0 chars) := if_pos h

theorem programTurns_append (ps qs : List Timed) :
    programTurns (ps ++ qs) = programTurns ps ++ programTurns qs := List.flatMap_append

/-- The WAIT counts change no instruction. -/
@[simp] theorem timed_map_fst (polls : Nat → Nat) (is : List Instr) :
    ∀ n, (timed polls n is).map Prod.fst = is := by
  induction is with
  | nil => intro _; rfl
  | cons i is ih => intro n; simp [timed, ih]

theorem timed_append (polls : Nat → Nat) (is js : List Instr) :
    ∀ n, timed polls n (is ++ js) = timed polls n is ++ timed polls (n + is.length) js := by
  induction is with
  | nil => intro _; rfl
  | cons i is ih => intro n; simp [timed, ih, Nat.add_assoc, Nat.add_comm 1]

/-- Every choice of WAIT counts is some `polls`: no timed program is left out. -/
theorem exists_timed (ps : List Timed) : ∃ polls, timed polls 0 (ps.map Prod.fst) = ps := by
  have shift : ∀ (is : List Instr) (f : Nat → Nat) (n : Nat),
      timed f (n + 1) is = timed (fun k => f (k + 1)) n is := by
    intro is
    induction is with
    | nil => intro _ _; rfl
    | cons i is ih => intro f n; simp [timed, ih]
  induction ps with
  | nil => exact ⟨fun _ => 0, rfl⟩
  | cons p ps ih =>
    obtain ⟨f, hf⟩ := ih
    exact ⟨fun k => Nat.casesOn k p.2 f, by
      rw [List.map_cons, timed, shift]
      exact congrArg (p :: ·) hf⟩

/-- With no configuration writes between, the encoder is one more instruction of the program. -/
theorem encodedProgram_nil (polls : Nat → Nat) (is : List Instr) (encoder : Instr) (n : Nat) :
    encodedProgram polls is [] encoder n =
      programTurns (timed polls 0 (is ++ [encoder])) ++ rdOut n := by
  simp [encodedProgram, timed_append, programTurns, timed]

/-- The program of `hex` is HINIT, the pushes, FINAL, EHEX with their WAITs, and the reads of `RDOUT`. -/
theorem hexProgram_eq {text : List Code} {bytes : List Byte} (h : textToUtf8Bytes text = .ok bytes)
    (polls : Nat → Nat) : hexProgram text polls =
      .ok (programTurns (timed polls 0 (digestInstrs bytes ++ [.ehex])) ++ rdOut 32) := by
  rw [hexProgram, h, ← encodedProgram_nil]
  rfl

end Sys2Proof.Machine
end

