-- ==== Sys2Proof/Laws/Invariant.lean ====
section
/-! SUPPORT. What keeps the invariant of Safety.lean: trap entry, the resets, acceptance, and the completion
of each instruction. -/

namespace Sys2Proof.Machine

theorem errBit_or_ne_zero (e : BitVec 6) (c : Cause) : (e ||| c.errBit) ≠ 0 := by
  revert e
  cases c <;> decide

theorem errBit_and_or (e : BitVec 6) (c d : Cause) (h : e &&& d.errBit ≠ 0) :
    (e ||| c.errBit) &&& d.errBit ≠ 0 := by
  revert e
  cases c <;> cases d <;> decide

theorem errBit_and_self (e : BitVec 6) (c : Cause) : (e ||| c.errBit) &&& c.errBit ≠ 0 := by
  revert e
  cases c <;> decide

theorem captureAddr_reserved (off : Offset) (w : Bool) : (captureAddr off w).extractLsb' 12 19 = 0 := by
  apply BitVec.eq_of_getLsbD_eq
  intro j hj
  have h1 : ∀ j, j < 19 → (0x80000000#32).getLsbD (12 + j) = false := by decide
  cases w <;> simp [captureAddr, h1 j hj]

/-- Trap entry keeps the invariant (R306). -/
theorem raise_keeps_inv (c : Cause) (off : Offset) (w : Bool) (d : Word) {s : State} (h : s.Inv) :
    (raise c off w d s).Inv where
  err_iff_fault := ⟨fun _ => rfl, fun _ => errBit_or_ne_zero _ _⟩
  pend_in_fault := by simp
  dvalid_idle := by simp
  outlen_dvalid := by simp
  len_range := by simp
  block_tail_zero := by simp
  capture_zero := fun h0 => absurd h0 (errBit_or_ne_zero _ _)
  key_is_hmac := by simp
  pend_accepted := by simp
  outlen_range := by simp
  cause_recorded := fun _ => by
    by_cases h0 : s.err = 0
    · exact ⟨c, if_pos h0, errBit_and_self _ _⟩
    · obtain ⟨c', h1, h2⟩ := h.cause_recorded h0
      exact ⟨c', (if_neg h0).trans h1, errBit_and_or _ _ _ h2⟩
  eaddr_form := by
    rw [raise_eaddr]
    split
    · exact captureAddr_reserved off w
    · exact h.eaddr_form
  closed_cleared := by simp

/-- A state all of whose engine registers are at their reset values meets the invariant (R47). -/
theorem reset_like_inv (s : State) :
    ({ State.reset with alpha := s.alpha, agenda := s.agenda, replies := s.replies
                        resets := s.resets } : State).Inv where
  err_iff_fault := by simp [State.reset]
  pend_in_fault := by simp [State.reset]
  dvalid_idle := by simp [State.reset]
  outlen_dvalid := by simp [State.reset]
  len_range := by simp [State.reset]
  block_tail_zero := by simp [State.reset]
  capture_zero := by simp [State.reset]
  key_is_hmac := by simp [State.reset]
  pend_accepted := by simp [State.reset]
  outlen_range := by simp [State.reset]
  cause_recorded := by simp [State.reset]
  eaddr_form := by simp [State.reset]
  closed_cleared := by simp [State.reset, zeroBlock]

theorem softReset_inv (s : State) : (softReset s).Inv := reset_like_inv s

theorem hardReset_inv (s : State) : (hardReset s).Inv :=
  reset_like_inv { s with alpha := tabulate 256 (Config.alphaAtReset (s.resets + 1)), resets := s.resets + 1 }

/-- The invariant does not look at the agenda, the replies, the configuration (while nothing pends) or the
interrupt enables. -/
theorem inv_turn {s : State} (h : s.Inv) (turns : List Turn) (replies : List Reply) :
    ({ s with agenda := turns, replies := replies } : State).Inv :=
  ⟨h.1, h.2, h.3, h.4, h.5, h.6, h.7, h.8, h.9, h.10, h.11, h.12, h.13⟩

theorem reply_inv {s : State} (h : s.Inv) (r : Reply) : (reply r s).Inv := inv_turn h s.agenda _

theorem writeConfig_inv {s : State} (h : s.Inv) (hp : s.pend = none) (r : Reg) (d : Word) :
    (writeConfig r d s).Inv := by
  have hn : ∀ op, s.pend = some op → False := by simp [hp]
  cases r <;>
    exact ⟨h.1, h.2, h.3, h.4, h.5, h.6, h.7, h.8, fun op ho => (hn op ho).elim, h.10, h.11, h.12, h.13⟩

theorem clear_pend_inv {s : State} (h : s.Inv) : ({ s with pend := none } : State).Inv :=
  ⟨h.1, by simp, h.3, h.4, h.5, h.6, h.7, h.8, by simp, h.10, h.11, h.12, h.13⟩

/-- Acceptance keeps the invariant (R70, R307). -/
theorem markPending_inv {i : Instr} {s : State} (h : s.Inv) (hi : i ≠ .srst)
    (ha : acceptance i s = none) : (markPending i s).Inv where
  err_iff_fault := h.1
  pend_in_fault := by
    intro hf op ho
    have hf' : s.phase = .fault := hf
    have hl := ((acceptance_none_iff hi).1 ha).2.1
    have : op = operationOf i := by simpa using ho.symm
    subst this
    cases i <;> simp [legalNow, hf'] at hl <;> simp at hi ⊢
  dvalid_idle := h.3
  outlen_dvalid := h.4
  len_range := h.5
  block_tail_zero := h.6
  capture_zero := h.7
  key_is_hmac := h.8
  pend_accepted := by
    intro op ho
    have : op = operationOf i := by simpa using ho.symm
    subst this
    exact ⟨i, pendingInstr_operationOf i, hi, acceptance_clear_pend (s := s) ha hi⟩
  outlen_range := h.10
  cause_recorded := h.11
  eaddr_form := h.12
  closed_cleared := h.13

theorem issue_inv {s : State} (h : s.Inv) (i : Instr) : (issue i s).Inv := by
  by_cases hi : i = .srst
  · subst hi
    rw [issue_srst]
    exact softReset_inv s
  · cases ha : acceptance i s with
    | none => rw [issue_accepted hi ha]; exact markPending_inv h hi ha
    | some c => rw [issue_trapped hi ha]; exact raise_keeps_inv _ _ _ _ h

/-- Outside FAULT nothing is recorded. -/
theorem err_zero_of_not_fault {s : State} (h : s.Inv) (hf : s.phase ≠ .fault) : s.err = 0 := by
  by_contra he
  exact hf (h.err_iff_fault.1 he)

theorem absorb_inv {s : State} (h : s.Inv) (hp : s.pend = none) (hk : s.phase = .key ∨ s.phase = .msg)
    (hl : s.len.toNat + 1 ≤ Config.lenMax) (b : Byte) : (absorb b s).Inv := by
  have hlt : s.len.toNat + 1 < 2 ^ 32 := by
    simp only [Config.lenMax] at hl
    omega
  have hn := len_succ_toNat hlt
  have hopen : ¬ (s.phase = .idle ∨ s.phase = .fault) := by
    rcases hk with hk | hk <;> simp [hk]
  have ht := absorb_tail_zero b s hlt (h.block_tail_zero hk)
  exact ⟨h.1, by simp [hp], h.3, h.4, hn.symm ▸ hl, fun _ => ht, h.7, h.8, by simp [hp],
    h.10, h.11, h.12, fun hc => absurd hc hopen⟩

theorem absorbAll_inv (bs : List Byte) : ∀ {s : State}, s.Inv → s.pend = none →
    s.phase = .key ∨ s.phase = .msg → s.len.toNat + bs.length ≤ Config.lenMax →
    (absorbAll bs s).Inv := by
  induction bs with
  | nil => intro s h _ _ _; exact h
  | cons b bs ih =>
    intro s h hp hk hl
    simp only [List.length_cons] at hl
    have hn : (s.len + 1).toNat = s.len.toNat + 1 :=
      len_succ_toNat (by simp only [Config.lenMax] at hl; omega)
    rw [absorbAll_cons]
    refine ih (absorb_inv h hp hk (by omega) b) (by simpa using hp) (by simpa using hk) ?_
    rw [absorb_len, hn]
    omega

theorem openContext_inv {s : State} (h : s.Inv) (hp : s.pend = none) (hf : s.phase ≠ .fault) (m : Mode)
    (p : Phase) (hm : p = .key ∧ m = .hmac ∨ p = .msg) : (openContext m p s).Inv := by
  have he := err_zero_of_not_fault h hf
  have hpf : p ≠ .fault ∧ p ≠ .idle := by rcases hm with ⟨hm, -⟩ | hm <;> simp [hm]
  exact ⟨by simp [he, hpf.1], by simp [hp], by simp, by simp, by simp, by simp,
    by simpa [he] using h.7, by rcases hm with ⟨hm, hm'⟩ | hm <;> simp [*], by simp [hp], by simp,
    by simp [he], h.12, by simp [hpf]⟩

theorem completeKdone_inv {s : State} (h : s.Inv) (hp : s.pend = none) (hk : s.phase = .key) :
    (completeKdone s).Inv where
  err_iff_fault := by
    have he : s.err = 0 := err_zero_of_not_fault h (by simp [hk])
    exact ⟨fun hn => absurd he hn, fun hf => nomatch hf⟩
  pend_in_fault := fun hf => nomatch hf
  dvalid_idle := fun hd => absurd (hk.symm.trans (h.dvalid_idle hd)) (by decide)
  outlen_dvalid := h.outlen_dvalid
  len_range := (by decide : (64 : Word).toNat ≤ Config.lenMax)
  block_tail_zero := fun _ p _ => blockByte_zeroBlock p
  capture_zero := h.capture_zero
  key_is_hmac := fun hf => nomatch hf
  pend_accepted := fun op ho => absurd (hp.symm.trans ho) (by simp)
  outlen_range := h.outlen_range
  cause_recorded := h.cause_recorded
  eaddr_form := h.eaddr_form
  closed_cleared := fun hf => nomatch hf

theorem completeFinal_inv {s : State} (h : s.Inv) (hp : s.pend = none) (hm : s.phase = .msg) :
    (completeFinal s).Inv where
  err_iff_fault := by
    have he : s.err = 0 := err_zero_of_not_fault h (by simp [hm])
    exact ⟨fun hn => absurd he hn, fun hf => nomatch hf⟩
  pend_in_fault := fun hf => nomatch hf
  dvalid_idle := fun _ => rfl
  outlen_dvalid := fun _ => rfl
  len_range := h.len_range
  block_tail_zero := fun hf => by rcases hf with hf | hf <;> cases hf
  capture_zero := h.capture_zero
  key_is_hmac := fun hf => nomatch hf
  pend_accepted := fun op ho => absurd (hp.symm.trans ho) (by simp)
  outlen_range := h.outlen_range
  cause_recorded := h.cause_recorded
  eaddr_form := h.eaddr_form
  closed_cleared := fun _ => ⟨rfl, rfl⟩

theorem storeOut_inv {s : State} (h : s.Inv) (hd : s.dvalid = true) (hp : s.pend = none) (cs : List Code)
    (hc : cs.length ≤ 128) : (storeOut cs s).Inv := by
  have : (BitVec.ofNat 8 cs.length).toNat ≤ 128 := by
    rw [BitVec.toNat_ofNat]
    omega
  exact ⟨h.1, by simp [hp], h.3, fun _ => hd, h.5, h.6, h.7, h.8, by simp [hp], this, h.11, h.12, h.13⟩

theorem clearFault_inv {s : State} (h : s.Inv) (hp : s.pend = none) : (clearFault s).Inv where
  err_iff_fault := by simp; split <;> simp_all
  pend_in_fault := by simp [hp]
  dvalid_idle := fun hd => by simp [h.dvalid_idle hd]
  outlen_dvalid := h.4
  len_range := h.5
  block_tail_zero := by
    intro hk
    have : s.phase = .key ∨ s.phase = .msg := by
      simp only [clearFault_phase] at hk
      split at hk
      · simp at hk
      · exact hk
    exact h.6 this
  capture_zero := by simp
  key_is_hmac := by
    intro hk
    simp only [clearFault_phase] at hk
    split at hk
    · simp at hk
    · exact h.8 hk
  pend_accepted := by simp [hp]
  outlen_range := h.10
  cause_recorded := by simp
  eaddr_form := by simp
  closed_cleared := by
    intro hk
    simp only [clearFault_phase] at hk
    split at hk
    · exact h.13 (.inr ‹_›)
    · exact h.13 hk

/-- The completion of an accepted instruction keeps the invariant. -/
theorem completion_inv {i : Instr} {s : State} (h : s.Inv) (hi : i ≠ .srst)
    (ha : acceptance i s = none) : (completion i s).Inv := by
  obtain ⟨hp, hl, ho, hr⟩ := (acceptance_none_iff hi).1 ha
  cases i with
  | nop => exact h
  | srst => exact absurd rfl hi
  | hinit => exact openContext_inv h hp (by simpa [legalNow] using hl) _ _ (.inr rfl)
  | kinit => exact openContext_inv h hp (by simpa [legalNow] using hl) _ _ (.inl ⟨rfl, rfl⟩)
  | kdone => exact completeKdone_inv h hp (by simpa [legalNow] using hl)
  | final => exact completeFinal_inv h hp (by simpa [legalNow] using hl)
  | clrf => exact clearFault_inv h hp
  | pushb b =>
    exact absorb_inv h hp (by simpa [legalNow] using hl) (by simpa [overflowsLen, Nat.not_lt] using ho) b
  | dinw w =>
    exact absorbAll_inv _ h hp (by simpa [legalNow] using hl)
      (by simpa [overflowsLen, Nat.not_lt, wordBytes] using ho)
  | ehex =>
    have hd : s.phase = .idle ∧ s.dvalid = true := by simpa [legalNow] using hl
    exact storeOut_inv h hd.2 hp _ (by rw [toHex_length, quad_bytes_length]; decide)
  | eb64 =>
    have hd : s.phase = .idle ∧ s.dvalid = true := by simpa [legalNow] using hl
    exact storeOut_inv h hd.2 hp _ (by rw [toBase64_digest_length]; split <;> decide)
  | erdx =>
    have hd : s.phase = .idle ∧ s.dvalid = true := by simpa [legalNow] using hl
    exact storeOut_inv h hd.2 hp _ (by
      rw [List.length_map, radixDigits_length]
      exact radixLength_le _)

theorem exec_inv (i : Instr) {s : State} (h : s.Inv) : ∃ t, exec i s = .next t ∧ t.Inv := by
  by_cases hi : i = .srst
  · subst hi; exact ⟨_, rfl, softReset_inv s⟩
  rcases exec_cases i s with ⟨c, hc, he⟩ | ⟨ha, he⟩
  · exact ⟨_, he, raise_keeps_inv _ _ _ _ h⟩
  · exact ⟨_, exec_eq_completion ((acceptance_none_iff hi).1 ha).1 ha, completion_inv h hi ha⟩

theorem engine_inv {s : State} (h : s.Inv) : ∃ t, engineStep s = .next t ∧ t.Inv := by
  cases hp : s.pend with
  | none => exact ⟨s, engineStep_idle hp, h⟩
  | some op =>
    obtain ⟨i, hi, hs, ha⟩ := h.pend_accepted op hp
    refine ⟨_, engineStep_pending hp hi, ?_⟩
    rw [retire_completion]
    exact completion_inv (clear_pend_inv h) hs ha

end Sys2Proof.Machine
end

