-- ==== Sys2Proof/Tests/Slice0.lean ====
section
/-! SUPPORT. Tests: ill-formed words are refused, words written out from spec 30_encoding.md decode, one or
two single steps per instruction with the values of 95_test_vectors.md, and for every statement with
hypotheses a state and operands that meet them. -/

open Sys2Proof Sys2Proof.Machine Sys2Proof.Claims

namespace Sys2Proof.Tests

/-! ## States -/

/-- The reset state with `ALPHA[i] = i`. -/
def base : State := { State.reset with alpha := tabulate 256 (BitVec.ofNat 16) }

/-- A plain context of `n` bytes with this block. -/
def opened (n : Nat) (ws : List Word) : State :=
  { base with phase := .msg, h := iv, blk := blockOfList ws, len := BitVec.ofNat 32 n }

/-- An HMAC key of `n` bytes in the KEY phase. -/
def keyed (n : Nat) (ws : List Word) : State :=
  { base with phase := .key, mode := .hmac, h := iv, key := blockOfList ws, len := BitVec.ofNat 32 n }

/-- The digest of "abc" (vector S1). -/
def abc : State :=
  { base with dvalid := true, h := ⟨0x98500190, 0xB04FD23C, 0x7D3F96D6, 0x727FE128⟩, len := 3 }

/-- A SEQ trap was taken (vector T1). -/
def faulted : State := raise .seq 0x000 true 0x00000005 base

/-- A PUSHB pends. -/
def busy : State := { opened 1 [0x61] with pend := some (.cmd 0x00006204) }

/-- `s` with one turn to come. -/
def turn (t : Turn) (s : State) : State := { s with agenda := [t] }

/-- What `f` sees of the next state. -/
def see {α : Type} (o : Outcome) (f : State → α) : Option α :=
  match o with
  | .next t => some (f t)
  | .fault _ => none
  | .refused _ => none

/-- A decidable property of every entry of a list, entry by entry. -/
theorem each {α : Type} {p : α → Prop} [DecidablePred p] {l : List α} (h : l.all (p ·) = true) :
    ∀ x ∈ l, p x := by simpa using h

/-! ## Well-formedness: a word of each ill-formed kind (R97, R101) -/

theorem test_reserved_bit_of_c0_refused : wellFormedCommand 0x0000010F = false := by decide

theorem test_reserved_bit_of_c1_refused : wellFormedCommand 0x00010004 = false := by decide

theorem test_undefined_opcodes_refused :
    ([0x06, 0x07, 0x0B, 0x0C, 0x0D, 0x10, 0x77, 0xFF] : List Word).all
      (fun w => !wellFormedCommand w) = true := by decide

theorem test_defined_words_accepted :
    ([0x00, 0x01, 0x02, 0x03, 0x0000FF04, 0x05, 0x08, 0x09, 0x0A, 0x0E, 0x0F] : List Word).all
      wellFormedCommand = true := by decide

/-! ## Decoding: every constructor, from the rows of R98 -/

theorem test_decode_nop : decodeCmd 0x00000000 = .ok .nop := by decide
theorem test_decode_hinit : decodeCmd 0x00000001 = .ok .hinit := by decide
theorem test_decode_kinit : decodeCmd 0x00000002 = .ok .kinit := by decide
theorem test_decode_kdone : decodeCmd 0x00000003 = .ok .kdone := by decide
theorem test_decode_pushb : decodeCmd 0x0000A504 = .ok (.pushb 0xA5) := by decide
theorem test_decode_final : decodeCmd 0x00000005 = .ok .final := by decide
theorem test_decode_ehex : decodeCmd 0x00000008 = .ok .ehex := by decide
theorem test_decode_eb64 : decodeCmd 0x00000009 = .ok .eb64 := by decide
theorem test_decode_erdx : decodeCmd 0x0000000A = .ok .erdx := by decide
theorem test_decode_clrf : decodeCmd 0x0000000E = .ok .clrf := by decide
theorem test_decode_srst : decodeCmd 0x0000000F = .ok .srst := by decide
theorem test_decode_dinw : decodeAt .din 0x00000006 = .ok (.dinw 0x00000006) := by decide

/-- T4, T5: words next to PUSHB, SRST and HINIT. -/
theorem test_decode_refuses_neighbours :
    decodeCmd 0x00010004 = .error .reservedBits ∧ decodeCmd 0x0000010F = .error .reservedBits ∧
    decodeCmd 0x00000101 = .error .reservedBits ∧ decodeCmd 0x00000099 = .error .undefinedOpcode := by
  decide

theorem test_table_words :
    decodeTableWord 32 0x00000005 = some .final ∧
    decodeTableWord 32 0x65646362 = some (.dinw 0x65646362) := by decide

/-! ## One step per instruction -/

/-- R-12: NOP after a digest. -/
theorem test_nop : see (exec .nop abc) (fun t => (t.status, t.h.a, t.len)) =
    some (0x00000002, 0x98500190, 3) := by decide +kernel

/-- T24: NOP pends in FAULT, and STATUS shows it. -/
theorem test_nop_pends_in_fault : (issue .nop faulted).status = 0x31 := by decide +kernel

/-- P1 row 1. -/
theorem test_hinit : see (exec .hinit abc) (fun t => (t.h, t.len, t.status)) =
    some (⟨0x67452301, 0xEFCDAB89, 0x98BADCFE, 0x10325476⟩, 0, 0x20) := by decide +kernel

/-- T18: HINIT in FAULT. -/
theorem test_hinit_in_fault : see (exec .hinit faulted) (fun t => (t.err, t.ecause, t.edata)) =
    some (0x08, 4, 0x00000005) := by decide +kernel

/-- R-13. -/
theorem test_kinit : see (exec .kinit abc) (fun t => (t.status, t.h.d, t.outlen, t.len)) =
    some (0x14, 0x10325476, 0, 0) := by decide +kernel

/-- G2: the key "Jefe". -/
theorem test_kdone_short_key :
    see (exec .kdone (keyed 4 [0x6566654A])) (fun t => (t.h, t.key.get 0, t.len, t.status)) =
      some (⟨0xCB6180E8, 0x2FA83EA8, 0x43278D6C, 0xB9526934⟩, 0x6566654A, 64, 0x24) := by
  decide +kernel

/-- H4: a key of 65 bytes `6B` is replaced by its digest. -/
theorem test_kdone_long_key :
    see (exec .kdone { keyed 65 (List.replicate 16 0x6B6B6B6B) with
        h := compress iv (blockOfList (List.replicate 16 0x6B6B6B6B)), blk := blockOfList [0x6B] })
      (fun t => (t.key.get 0, t.key.get 3, t.key.get 4, t.h.a)) =
      some (0x30C3DBAE, 0x3195CFA8, 0, 0x50F21D2E) := by decide +kernel

/-- W4. -/
theorem test_pushb : see (exec (.pushb 0x61) (opened 0 [])) (fun t => (t.blk.get 0, t.len, t.h.a, t.status)) =
    some (0x00000061, 1, 0x67452301, 0x20) := by decide +kernel

/-- T16. -/
theorem test_pushb_overflow :
    see (exec (.pushb 0x61) (opened 0x1FFFFFFF [])) (fun t => (t.err, t.ecause, t.eaddr, t.edata)) =
      some (0x10, 5, 0x80000000, 0x00006104) := by decide +kernel

/-- M9: 56 bytes `61`, two final compressions. -/
theorem test_final_two_blocks :
    see (exec .final (opened 56 (List.replicate 14 0x61616161))) (fun t => (t.h, t.status, t.len)) =
      some (⟨0xC78A0C3B, 0xB028F803, 0x70196C4C, 0x1872D106⟩, 0x02, 56) := by decide +kernel

/-- G2, R208: the HMAC of "what do ya want for nothing?". -/
theorem test_final_hmac :
    see (exec .final { opened 92 [0x74616877, 0x206F6420, 0x77206179, 0x20746E61, 0x20726F66, 0x68746F6E,
          0x3F676E69] with
        mode := .hmac, key := blockOfList [0x6566654A]
        h := ⟨0xCB6180E8, 0x2FA83EA8, 0x43278D6C, 0xB9526934⟩ })
      (fun t => (t.h, t.status, t.key.get 0)) =
      some (⟨0x3E780C75, 0x03B5B06A, 0x316EA8EA, 0x38B75D0A⟩, 0x06, 0) := by decide +kernel

/-- E1: `900150983cd24fb0d6963f7d28e17f72`. -/
theorem test_ehex : see (exec .ehex abc) (fun t => (t.outlen, t.out.toList.take 16)) =
    some (32, [0x39, 0x30, 0x30, 0x31, 0x35, 0x30, 0x39, 0x38, 0x33, 0x63, 0x64, 0x32, 0x34, 0x66, 0x62,
      0x30]) := by decide +kernel

/-- E2: the uppercase letters. -/
theorem test_ehex_upper : see (exec .ehex { abc with cfg := 1 }) (fun t => t.out.toList.drop 9 |>.take 5) =
    some [0x43, 0x44, 0x32, 0x34, 0x46] := by decide +kernel

/-- E3: `kAFQmDzST7DWlj99KOF/cg`. -/
theorem test_eb64 : see (exec .eb64 abc) (fun t => (t.outlen, t.out.toList.take 22)) =
    some (22, [0x6B, 0x41, 0x46, 0x51, 0x6D, 0x44, 0x7A, 0x53, 0x54, 0x37, 0x44, 0x57, 0x6C, 0x6A, 0x39, 0x39,
      0x4B, 0x4F, 0x46, 0x2F, 0x63, 0x67]) := by decide +kernel

/-- E4: the pad character. -/
theorem test_eb64_pad : see (exec .eb64 { abc with b64pad := 0x1003D })
    (fun t => (t.outlen, t.out.toList.drop 20 |>.take 5)) =
    some (24, [0x63, 0x67, 0x3D, 0x3D, 0]) := by decide +kernel

/-- E16: radix 256, the digest bytes. -/
theorem test_erdx_bytes : see (exec .erdx { abc with radix := 256 }) (fun t => (t.outlen, t.out.toList.take 16)) =
    some (16, [0x90, 0x01, 0x50, 0x98, 0x3C, 0xD2, 0x4F, 0xB0, 0xD6, 0x96, 0x3F, 0x7D, 0x28, 0xE1, 0x7F,
      0x72]) := by decide +kernel

/-- E10: radix 10, `191415658344158766168031473277922803570`. -/
theorem test_erdx_decimal : see (exec .erdx { abc with radix := 10 }) (fun t => (t.outlen, t.out.toList.take 39)) =
    some (39, [1, 9, 1, 4, 1, 5, 6, 5, 8, 3, 4, 4, 1, 5, 8, 7, 6, 6, 1, 6, 8, 0, 3, 1, 4, 7, 3, 2, 7, 7, 9, 2,
      2, 8, 0, 3, 5, 7, 0]) := by decide +kernel

/-- T1: CLRF after the SEQ trap. -/
theorem test_clrf : see (exec .clrf faulted) (fun t => (t.err, t.ecause, t.eaddr, t.edata, t.status)) =
    some (0, 0, 0, 0, 0) := by decide +kernel

/-- T19, R-9: SRST while busy, `ALPHA` kept. -/
theorem test_srst : see (exec .srst busy) (fun t => (t.pend, t.status, t.err, t.alpha.get 0x41)) =
    some (none, 0, 0, 0x41) := by decide +kernel

/-- W5: four bytes across two words. -/
theorem test_dinw_straddles : see (exec (.dinw 0x65646362) (opened 1 [0x61]))
    (fun t => (t.blk.get 0, t.blk.get 1, t.len)) = some (0x64636261, 0x00000065, 5) := by decide +kernel

/-- W8: bytes `00` to `40`, the block completed inside the operation. -/
theorem test_dinw_completes_block :
    see (exec (.dinw 0x403F3E3D) (opened 61 [0x03020100, 0x07060504, 0x0B0A0908, 0x0F0E0D0C, 0x13121110,
        0x17161514, 0x1B1A1918, 0x1F1E1D1C, 0x23222120, 0x27262524, 0x2B2A2928, 0x2F2E2D2C, 0x33323130,
        0x37363534, 0x3B3A3938, 0x0000003C]))
      (fun t => (t.h, t.blk.get 0, t.blk.get 15, t.len)) =
      some (⟨0x9144D9CA, 0xD901E4C9, 0x72FC5B38, 0x625FF51E⟩, 0x00000040, 0, 65) := by decide +kernel

/-! ## The bus and the codec -/

/-- T22: ACCESS before BUSY, and the driven lanes. -/
theorem test_access_before_busy :
    see (step (turn (.write 0x002 .half 0x00000005 .later) busy))
      (fun t => (t.err, t.ecause, t.eaddr, t.edata, t.replies)) =
      some (0x01, 1, 0x80000002, 0x00000005, [.ofWrite .error]) := by decide +kernel

/-- T2, T21: BUSY before ILLOP. -/
theorem test_busy_before_illop :
    see (step (turn (.write 0x000 .word 0x00000099 .later) busy)) (fun t => (t.err, t.edata, t.pend)) =
      some (0x02, 0x00000099, none) := by decide +kernel

/-- I2: `irq` falls while an operation pends. -/
theorem test_irq_falls : (issue .hinit { base with ien := 3 }).status = 0x00000001 := by decide +kernel

/-- UT2 to UT5. -/
theorem test_utf8 :
    textToUtf8Bytes [0x00E9] = .ok [0xC3, 0xA9] ∧ textToUtf8Bytes [0x20AC] = .ok [0xE2, 0x82, 0xAC] ∧
    textToUtf8Bytes [0xD83D, 0xDE00] = .ok [0xF0, 0x9F, 0x98, 0x80] ∧
    textToUtf8Bytes [0xD800] = .ok [0xED, 0xA0, 0x80] := by decide +kernel

/-- UT6. -/
theorem test_utf16 : textToUtf16LE [0x61, 0x62] = [0x61, 0x00, 0x62, 0x00] ∧
    textToUtf16BE [0x61, 0x62] = [0x00, 0x61, 0x00, 0x62] := by decide +kernel

/-- The writes of a program, offset and data. -/
def writes (ts : List Turn) : List (Offset × Word) :=
  ts.filterMap fun
    | .write off _ data _ => some (off, data)
    | .read _ _ => none
    | .reset => none
    | .engine => none

/-- R261: SETALPHA, HINIT, the pushes, FINAL, ERDX. -/
theorem test_any_program : (anyProgram [0x30, 0x31] [0x61] id).map writes =
    .ok [(0x028, 2), (0x400, 0x30), (0x404, 0x31), (0x000, 0x00000001), (0x000, 0x00006104),
      (0x000, 0x00000005), (0x000, 0x0000000A)] := by decide +kernel

/-- R262: KINIT, the key, KDONE, the data, FINAL, EB64, and the 24 reads of RDOUT after RD OUTLEN. -/
theorem test_hmac_b64_program :
    (hmacB64Program true [0x6B] [0x64] id).map (fun ts => (writes ts, ts.drop (ts.length - 24) |>.take 1)) =
      .ok ([(0x000, 0x00000002), (0x000, 0x00006B04), (0x000, 0x00000003), (0x000, 0x00006404),
        (0x000, 0x00000005), (0x000, 0x00000009)], [.read 0x800 .word]) := by decide +kernel

/-- There is no `ALPHA[256]` (notes/assumptions/12.md). -/
theorem test_setalpha_refuses_257 :
    (setAlpha (List.replicate 257 0x41)).toOption.isNone = true := by decide +kernel

/-! ## States that meet the hypotheses of the statements -/

/-- A MSG context of `n` zero bytes that meets the invariant. -/
theorem exists_open (n : Nat) (hn : n ≤ 64) :
    ∃ s : State, s.Inv ∧ s.pend = none ∧ s.phase = .msg ∧ s.len.toNat = n := by
  have h0 := openContext_inv (softReset_inv base) rfl (by decide) .plain .msg (.inr rfl)
  have hl : ∀ (m : Nat) (s : State), s.len.toNat + m ≤ 64 →
      (absorbAll (List.replicate m 0) s).len.toNat = s.len.toNat + m ∧
      (absorbAll (List.replicate m 0) s).pend = s.pend ∧
      (absorbAll (List.replicate m 0) s).phase = s.phase := by
    intro m
    induction m with
    | zero => intro s _; exact ⟨rfl, rfl, rfl⟩
    | succ m ih =>
      intro s hs
      have h1 : (absorb 0 s).len.toNat = s.len.toNat + 1 := len_succ_toNat (by omega)
      obtain ⟨a, b, c⟩ := ih (absorb 0 s) (by omega)
      exact ⟨by rw [List.replicate_succ, absorbAll_cons, a, h1]; omega, b, c⟩
  obtain ⟨a, b, c⟩ := hl n (openContext .plain .msg (softReset base)) (by simpa [openContext] using hn)
  refine ⟨_, absorbAll_inv (List.replicate n 0) h0 rfl (.inr rfl) ?_, b, c, by simpa [openContext] using a⟩
  rw [List.length_replicate]
  exact le_trans (by simpa [openContext] using hn) (by decide : 64 ≤ Config.lenMax)

theorem witness_ResetInputGivesResetState : ∃ (s : State) (rest : List Turn), s.agenda = .reset :: rest :=
  ⟨turn .reset busy, [], rfl⟩

theorem witness_SoftResetKeepsOnlyAlpha : ∃ (s : State) (rest : List Turn) (lat : Latency),
    s.agenda = .write 0x000 .word 0x0000000F lat :: rest :=
  ⟨turn (.write 0x000 .word 0x0000000F .later) busy, [], .later, rfl⟩

theorem witness_EveryStepKeepsInvariant : ∃ s : State, s.Inv ∧ s.phase = .msg := by
  obtain ⟨s, h, -, hm, -⟩ := exists_open 63 (by decide)
  exact ⟨s, h, hm⟩

theorem witness_ReachableStatesMeetR46_open : ∃ (turns : List Turn) (n : Nat) (t : State),
    steps n { State.reset with agenda := turns } = .next t ∧ t.phase = .msg :=
  ⟨[.write 0x000 .word 0x00000001 .atOnce], 1, _, rfl, rfl⟩

theorem witness_ReachableStatesMeetR46_fault : ∃ (turns : List Turn) (n : Nat) (t : State),
    steps n { State.reset with agenda := turns } = .next t ∧ t.phase = .fault ∧ t.err ≠ 0 :=
  ⟨[.write 0x000 .word 0x00000005 .atOnce], 1, _, rfl, rfl, by decide⟩

theorem witness_ReachableStatesMeetR46_key : ∃ (turns : List Turn) (n : Nat) (t : State),
    steps n { State.reset with agenda := turns } = .next t ∧ t.phase = .key :=
  ⟨[.write 0x000 .word 0x00000002 .atOnce], 1, _, rfl, rfl⟩

theorem witness_StepRunsTheDecodedInstruction :
    (∃ (i : Instr) (s : State) (rest : List Turn),
      s.agenda = .write (portOf i).offset .word (encode i) .atOnce :: rest) ∧
    ∃ (i : Instr) (nbits w : Nat), decodeTableWord nbits w = some i :=
  ⟨⟨.pushb 0x61, turn (.write 0x000 .word 0x00006104 .atOnce) base, [], by decide⟩,
    .pushb 0x61, 32, 0x00006104, by decide⟩

theorem witness_EngineStepCompletesAcceptedOperation : ∃ (i : Instr) (s : State) (rest : List Turn),
    i ≠ .srst ∧ acceptance i s = none ∧
    s.agenda = .write (portOf i).offset .word (encode i) .later :: rest :=
  ⟨.dinw 7, turn (.write 0x004 .word 7 .later) (opened 1 [0x61]), [], by decide, by decide, rfl⟩

theorem witness_ReadsWhileBusyShowTheStateBefore : ∃ (s : State) (off : Offset) (j : Nat),
    s.pend = none ∧ off ≠ 0x008 ∧ j ≠ 0 ∧ j ≠ 3 := ⟨base, 0x00C, 5, rfl, by decide, by decide, by decide⟩

theorem witness_LatencyNeverChangesTheResult : ∃ (ps : List Timed) (s t : State) (rest : List Turn),
    s.pend = none ∧ s.agenda = programTurns ps ++ rest ∧ execAll (ps.map Prod.fst) s = .next t :=
  ⟨[(.hinit, 2), (.pushb 0x61, 0)],
    { base with agenda := programTurns [(.hinit, 2), (.pushb 0x61, 0)] }, _, [], rfl,
    (List.append_nil _).symm, rfl⟩

/-- Reads: a narrow one, a write-only register, and the ends of the unmapped ranges of R61. -/
theorem witness_RefusedTransactionTakesAccessTrap_read :
    ∀ p ∈ ([(0x008, .half), (0x000, .word), (0x004, .word), (0x009, .word), (0x034, .word), (0x03C, .word),
        (0x050, .word), (0x3FC, .word), (0xA00, .word), (0xFF8, .word)] : List (Offset × Size)),
      ∃ (s : State) (rest : List Turn), s.agenda = .read p.1 p.2 :: rest ∧
        ¬ (p.2 = .word ∧ readableOffset p.1.toNat) := by
  intro p hp
  refine ⟨turn (.read p.1 p.2) base, [], rfl, ?_⟩
  revert p
  unfold readableOffset
  exact each (by decide)

/-- Writes: a narrow one, read-only registers at the ends of their ranges, and unmapped offsets. -/
theorem witness_RefusedTransactionTakesAccessTrap_write :
    ∀ p ∈ ([(0x021, .byte), (0x008, .word), (0x018, .word), (0x02C, .word), (0x030, .word), (0x040, .word),
        (0x3FC, .word), (0x401, .word), (0x800, .word), (0xFFC, .word)] : List (Offset × Size)),
      ∃ (s : State) (rest : List Turn) (data : Word) (lat : Latency),
        s.agenda = .write p.1 p.2 data lat :: rest ∧ ¬ (p.2 = .word ∧ writableOffset p.1.toNat) := by
  intro p hp
  refine ⟨turn (.write p.1 p.2 5 .later) base, [], 5, .later, rfl, ?_⟩
  revert p
  unfold writableOffset
  exact each (by decide)

theorem witness_LegalReadChangesNothing :
    ∀ off ∈ ([0x008, 0x030, 0x040, 0x04C, 0x400, 0x9FC, 0xFFC] : List Offset),
      ∃ (s : State) (rest : List Turn), s.agenda = .read off .word :: rest ∧ readableOffset off.toNat := by
  intro off ho
  refine ⟨turn (.read off .word) busy, [], rfl, ?_⟩
  revert off
  unfold readableOffset
  exact each (by decide)

theorem witness_ConfigurationWriteStoresItsFields :
    ∀ off ∈ ([0x01C, 0x020, 0x024, 0x028, 0x400, 0x7FC] : List Offset),
      ∃ (s : State) (data : Word) (lat : Latency) (rest : List Turn), s.pend = none ∧
        s.agenda = .write off .word data lat :: rest :=
  fun off _ => ⟨turn (.write off .word 0xFFFFFFFF .later) faulted, 0xFFFFFFFF, .later, [], rfl, rfl⟩

theorem witness_WriteWhileBusyTakesBusyTrap :
    ∀ off ∈ ([0x000, 0x004, 0x01C, 0x028, 0x400, 0x7FC] : List Offset),
      ∃ (s : State) (data : Word) (lat : Latency) (rest : List Turn), s.pend ≠ none ∧
        s.agenda = .write off .word data lat :: rest ∧ writableOffset off.toNat ∧
        ¬ (off = 0x000 ∧ data = 0x0000000F) := by
  intro off ho
  refine ⟨turn (.write off .word 0x0000010F .later) busy, 0x0000010F, .later, [], by simp [turn, busy], rfl, ?_⟩
  revert off
  unfold writableOffset
  exact each (by decide)

theorem witness_IllegalCommandWordTakesIllopTrap :
    ∀ data ∈ ([0x00000006, 0x00010004, 0x0000010F, 0x00000077] : List Word),
      ∃ (s : State) (lat : Latency) (rest : List Turn), s.pend = none ∧
        s.agenda = .write 0x000 .word data lat :: rest ∧ wellFormedCommand data = false := by
  intro data hd
  refine ⟨turn (.write 0x000 .word data .later) base, .later, [], rfl, rfl, ?_⟩
  revert data
  exact each (by decide)

theorem witness_TrapEntryDestroysTheContext :
    (∃ s t : State, t = raise .seq 0x000 true 5 s ∧ s.err = 0 ∧ s.ien.getLsbD 1 = true) ∧
    ∃ s t : State, t = raise .seq 0x000 true 5 s ∧ s.err ≠ 0 :=
  ⟨⟨{ base with ien := 2 }, _, rfl, rfl, by decide⟩, faulted, _, rfl, by decide⟩

/-- A row of each shape of R99: KDONE in MSG, FINAL and DINW in IDLE, HINIT in FAULT, EHEX without a
digest and in MSG. -/
theorem witness_IllegalPhaseTakesSeqTrap :
    ∀ p ∈ ([(.kdone, opened 0 []), (.final, base), (.dinw 7, base), (.hinit, faulted), (.ehex, base),
        (.ehex, opened 0 [])] : List (Instr × State)),
      p.2.pend = none ∧ ¬ legalIn p.2.phase p.2.dvalid p.1 := by
  simp [legalIn, opened, base, faulted, State.reset]

/-- T16, T17: the least length at which each push is refused. -/
theorem witness_OverlongPushTakesLenovfTrap :
    ∀ p ∈ ([(.pushb 0x61, opened 0x1FFFFFFF []), (.dinw 0x64636261, opened 0x1FFFFFFC [])] :
        List (Instr × State)),
      p.2.pend = none ∧ legalIn p.2.phase p.2.dvalid p.1 ∧ isPush p.1 ∧
        p.2.len.toNat + pushCount p.1 > 2 ^ 29 - 1 := by
  simp [legalIn, opened, base, State.reset, isPush, pushCount]

theorem witness_IllegalRadixTakesCfgerrTrap :
    ∀ r ∈ ([0, 1, 257] : List Word), ∃ s : State, s.radix = r ∧ s.pend = none ∧ s.phase = .idle ∧
      s.dvalid = true ∧ (s.radix.toNat < 2 ∨ 256 < s.radix.toNat) := by
  intro r hr
  refine ⟨{ abc with radix := r }, rfl, rfl, rfl, rfl, ?_⟩
  show r.toNat < 2 ∨ 256 < r.toNat
  revert r
  exact each (by decide)

/-- Pushes at the last accepted length, ERDX at both ends of the radix range, and CLRF in FAULT. -/
theorem witness_AcceptedInstructionNeverTraps :
    ∀ p ∈ ([(.pushb 0x61, opened 0x1FFFFFFE []), (.dinw 7, opened 0x1FFFFFFB []),
        (.erdx, { abc with radix := 2 }), (.erdx, { abc with radix := 256 }), (.clrf, faulted)] :
        List (Instr × State)),
      p.1 ≠ .srst ∧ p.2.pend = none ∧ legalIn p.2.phase p.2.dvalid p.1 ∧
        (isPush p.1 → p.2.len.toNat + pushCount p.1 ≤ 2 ^ 29 - 1) ∧
        (p.1 = .erdx → 2 ≤ p.2.radix.toNat ∧ p.2.radix.toNat ≤ 256) := by
  simp [legalIn, opened, abc, base, faulted, State.reset, isPush, pushCount]

theorem witness_NopChangesNothing :
    (∃ s : State, s.pend = none ∧ s.phase = .fault) ∧ ∃ s : State, s.pend ≠ none :=
  ⟨⟨faulted, rfl, rfl⟩, busy, by decide⟩

theorem witness_ClrfReturnsFromTrap :
    (∃ s : State, s.pend = none ∧ s.phase = .fault) ∧ ∃ s : State, s.pend = none ∧ s.phase ≠ .fault :=
  ⟨⟨faulted, rfl, rfl⟩, base, rfl, by decide⟩

theorem witness_HinitOpensPlainContext : ∃ s : State, s.pend = none ∧ s.phase ≠ .fault :=
  ⟨keyed 3 [], rfl, by decide⟩

theorem witness_KinitOpensHmacContext : ∃ s : State, s.pend = none ∧ s.phase ≠ .fault :=
  ⟨abc, rfl, by decide⟩

/-- A byte inside a block and the last byte of one; a key byte that `KEY` keeps and one it does not. -/
theorem witness_PushbAbsorbsOneByte :
    ∀ s ∈ [opened 62 [], opened 63 [], keyed 63 [], keyed 64 []],
      s.pend = none ∧ (s.phase = .key ∨ s.phase = .msg) ∧ s.len.toNat + 1 ≤ 2 ^ 29 - 1 := by
  simp [opened, keyed, base, State.reset]

theorem witness_PushbAbsorbsOneByte_clauses :
    (opened 62 []).len.toNat % 64 ≠ 63 ∧ (opened 63 []).len.toNat % 64 = 63 ∧
    ((keyed 63 []).phase = .key ∧ (keyed 63 []).len.toNat < 64) ∧
    ¬ ((keyed 64 []).phase = .key ∧ (keyed 64 []).len.toNat < 64) := by decide

theorem witness_DinwEqualsFourPushes : ∃ s : State, s.pend = none ∧ (s.phase = .key ∨ s.phase = .msg) ∧
    s.len.toNat + 4 ≤ 2 ^ 29 - 1 := ⟨opened 61 [], rfl, .inr rfl, by decide⟩

/-- The first and the last word of a block. -/
theorem witness_AlignedDinwDepositsItsWord :
    ∀ j ∈ ([0, 14, 15] : List (Fin 16)), ∃ s t : State, s.Inv ∧ s.pend = none ∧
      (s.phase = .key ∨ s.phase = .msg) ∧ s.len.toNat + 4 ≤ 2 ^ 29 - 1 ∧
      s.len.toNat % 64 = 4 * j.val ∧ exec (.dinw 7) s = .next t := by
  intro j _
  obtain ⟨s, h, hp, hm, hl⟩ := exists_open (4 * j.val) (by omega)
  have ha : acceptance (.dinw 7) s = none :=
    (acceptance_none_iff (by decide)).2 ⟨hp, by simp [legalNow, hm],
      by simp only [overflowsLen, Config.lenMax, hl, decide_eq_false_iff_not]; omega, rfl⟩
  exact ⟨s, _, h, hp, .inr hm, by omega, by omega, exec_eq_completion hp ha⟩

theorem witness_KdoneUsesShortKeyAsItIs : ∃ s : State, s.pend = none ∧ s.phase = .key ∧ s.len.toNat = 64 :=
  ⟨keyed 64 [], rfl, rfl, rfl⟩

theorem witness_KdoneHashesLongKey : ∃ s : State, s.pend = none ∧ s.phase = .key ∧ s.len.toNat = 65 :=
  ⟨keyed 65 [], rfl, rfl, rfl⟩

/-- Fill positions 55 and 56. -/
theorem witness_FinishPadsOneOrTwoBlocks :
    ∀ p ∈ ([55, 56] : List (Fin 64)), ∃ (s : State) (marked : Vector Word 16),
      p.val = s.len.toNat % 64 ∧ ∀ q : Fin 64,
        blockByte marked q = if q = p then blockByte s.blk q ||| 0x80 else blockByte s.blk q := by
  intro p hp
  refine ⟨opened p.val [], orByte zeroBlock p 0x80, ?_⟩
  revert p
  decide +kernel

theorem witness_FinalFinishesPlainHash : ∃ s : State, s.pend = none ∧ s.phase = .msg ∧ s.mode = .plain :=
  ⟨opened 3 [0x00636261], rfl, rfl, rfl⟩

theorem witness_FinalRunsOuterHash : ∃ s : State, s.pend = none ∧ s.phase = .msg ∧ s.mode = .hmac :=
  ⟨{ opened 64 [] with mode := .hmac }, rfl, rfl, rfl⟩

theorem witness_StreamedMessageHashesToMd5 : ∃ (is : List Instr) (s : State), s.pend = none ∧
    s.phase ≠ .fault ∧ (∀ i ∈ is, isPush i) ∧ (is.flatMap pushedBytes).length ≤ 2 ^ 29 - 1 ∧
    (is.flatMap pushedBytes).length = 5 :=
  ⟨[.pushb 0x61, .dinw 0x65646362], base, rfl, by decide, by simp [isPush], by decide, by decide⟩

theorem witness_HmacSequenceComputesHmac : ∃ (ks ds : List Instr) (s : State), s.pend = none ∧
    s.phase ≠ .fault ∧ (∀ i ∈ ks, isPush i) ∧ (∀ i ∈ ds, isPush i) ∧
    (ks.flatMap pushedBytes).length ≤ 2 ^ 29 - 1 ∧ (ds.flatMap pushedBytes).length ≤ 2 ^ 29 - 65 :=
  ⟨[.dinw 0x6566654A], [.pushb 0x77], base, rfl, by decide, by simp [isPush], by simp [isPush], by decide,
    by decide⟩

theorem witness_RoundFunctionsBitByBit : ∃ j : Nat, j < 32 := ⟨31, by decide⟩

theorem witness_EhexWritesTheHexDigits : ∃ (s : State) (k j : Nat), s.pend = none ∧ s.phase = .idle ∧
    s.dvalid = true ∧ k < 16 ∧ 32 ≤ j := ⟨abc, 15, 32, rfl, rfl, rfl, by decide, by decide⟩

theorem witness_Eb64WritesTheBase64Digits : ∃ (s : State) (g j : Nat), s.pend = none ∧ s.phase = .idle ∧
    s.dvalid = true ∧ g < 5 ∧ j < 4 ∧ s.b64pad.getLsbD 16 = false :=
  ⟨abc, 4, 3, rfl, rfl, rfl, by decide, by decide, rfl⟩

theorem witness_Eb64WritesTheBase64Digits_pad : ∃ s : State, s.pend = none ∧ s.phase = .idle ∧
    s.dvalid = true ∧ s.b64pad.getLsbD 16 = true :=
  ⟨{ abc with b64pad := 0x1003D }, rfl, rfl, rfl, by decide⟩

/-- Both ends of the radix range. -/
theorem witness_ErdxWritesTheRadixDigits :
    ∀ r ∈ ([2, 256] : List Word), ∃ s : State, s.pend = none ∧ s.phase = .idle ∧ s.dvalid = true ∧
      s.radix = r ∧ 2 ≤ s.radix.toNat ∧ s.radix.toNat ≤ 256 := by
  intro r hr
  refine ⟨{ abc with radix := r }, rfl, rfl, rfl, rfl, ?_⟩
  show 2 ≤ r.toNat ∧ r.toNat ≤ 256
  revert r
  exact each (by decide)

theorem witness_RadixLengthIsLeast : ∃ r m : Nat, 2 ≤ r ∧ r ≤ 256 ∧ m < radixLength r :=
  ⟨256, 15, by decide, by decide, by decide⟩

theorem witness_LongDivisionYieldsDigits : ∃ r n j : Nat, 2 ≤ r ∧ j < n := ⟨2, 128, 127, by decide, by decide⟩

theorem witness_EncodersAreRepeatable : ∃ (i : Instr) (s : State), (i = .ehex ∨ i = .eb64 ∨ i = .erdx) ∧
    s.pend = none ∧ s.phase = .idle ∧ s.dvalid = true ∧
    (i = .erdx → 2 ≤ s.radix.toNat ∧ s.radix.toNat ≤ 256) :=
  ⟨.erdx, { abc with radix := 10 }, .inr (.inr rfl), rfl, rfl, rfl, fun _ => by decide⟩

theorem witness_InstructionsLeaveConfigurationAlone : ∃ i : Instr, i ≠ .srst := ⟨.clrf, by decide⟩

theorem witness_AlphaChangesOnlyByWriteOrReset_write : ∃ (s t : State) (i : Fin 256),
    step s = .next t ∧ t.alpha.get i ≠ s.alpha.get i :=
  ⟨turn (.write 0x7FC .word 0x12345678 .later) base, _, 255, rfl, by decide +kernel⟩

theorem witness_AlphaChangesOnlyByWriteOrReset_reset : ∃ (s t : State) (i : Fin 256),
    step s = .next t ∧ t.alpha.get i ≠ s.alpha.get i ∧ ∃ rest, s.agenda = .reset :: rest := by
  refine ⟨turn .reset { base with alpha := tabulate 256 fun i => Config.alphaAtReset 1 i + 1 }, _, 0, rfl,
    ?_, [], rfl⟩
  show Config.alphaAtReset 1 0 ≠ Config.alphaAtReset 1 0 + 1
  intro h
  have := congrArg BitVec.toNat h
  rw [BitVec.toNat_add] at this
  have : (1 : Code).toNat = 1 := rfl
  omega

theorem witness_HostNeverWritesDigestRegisters : ∃ (s t : State) (turn : Turn) (rest : List Turn),
    s.agenda = turn :: rest ∧ turn ≠ .engine ∧
    (∀ off size data, turn ≠ .write off size data .atOnce) ∧ step s = .next t :=
  ⟨turn (.write 0x000 .word 0x00000001 .later) abc, _, _, [], rfl, by decide, by simp, rfl⟩

theorem witness_EncodeOfDecodeIsTheWord : ∃ (p : Port) (w : Word) (i : Instr), decodeAt p w = .ok i :=
  ⟨.cmd, 0x00006104, .pushb 0x61, by decide⟩

theorem witness_EveryTextHasUtf8Bytes : ∃ text : List Code, ∀ u ∈ text, u.toNat ≤ 0x7F :=
  ⟨[0x00, 0x7F], by simp⟩

theorem witness_HexProgramComputesApiHex : ∃ (text : List Code) (bytes : List Byte) (s : State),
    s.pend = none ∧ s.phase ≠ .fault ∧ textToUtf8Bytes text = .ok bytes ∧ bytes.length ≤ 2 ^ 29 - 1 :=
  ⟨[0x61, 0xE9], [0x61, 0xC3, 0xA9], base, rfl, by decide, by decide +kernel, by decide⟩

theorem witness_SaltedHashesAreHmacs :
    (∃ p s c : List Code, p ≠ [] ∧ s ≠ [] ∧ c ≠ []) ∧ ∃ p s : List Code, p = [] ∨ s = [] :=
  ⟨⟨[0x61], [0x62], [0x63], by decide, by decide, by decide⟩, [], [0x61], .inl rfl⟩

end Sys2Proof.Tests
end

section
/-! SUPPORT. Host programs turn by turn: what one turn does beside the agenda and the replies, how runs are
put together, and that the latency of a program changes no result. -/

namespace Sys2Proof.Machine

/-- `s` with other turns to come and other replies seen: the same engine. -/
def State.withBus (s : State) (turns : List Turn) (rs : List Reply) : State :=
  { s with agenda := turns, replies := rs }

/-! No instruction looks at the turns to come or at the replies. -/

theorem acceptance_withBus (i : Instr) (s : State) (turns : List Turn) (rs : List Reply) :
    acceptance i (s.withBus turns rs) = acceptance i s := by
  cases i <;> rfl

theorem absorbAll_withBus (bs : List Byte) (turns : List Turn) (rs : List Reply) :
    ∀ s : State, absorbAll bs (s.withBus turns rs) = (absorbAll bs s).withBus turns rs := by
  induction bs with
  | nil => intro s; rfl
  | cons b bs ih => intro s; exact ih (absorb b s)

theorem completion_withBus (i : Instr) (s : State) (turns : List Turn) (rs : List Reply) :
    completion i (s.withBus turns rs) = (completion i s).withBus turns rs := by
  cases i with
  | dinw w => exact absorbAll_withBus (wordBytes w) turns rs s
  | _ => rfl

theorem issue_withBus (i : Instr) (s : State) (turns : List Turn) (rs : List Reply) :
    issue i (s.withBus turns rs) = (issue i s).withBus turns rs := by
  by_cases hi : i = .srst
  · subst hi; rfl
  · have ha := acceptance_withBus i s turns rs
    cases h : acceptance i s with
    | none => rw [issue_accepted hi h, issue_accepted hi (ha.trans h)]; rfl
    | some c => rw [issue_trapped hi h, issue_trapped hi (ha.trans h)]; rfl

/-- The engine step commutes with a change of the turns to come and the replies. -/
theorem engineStep_withBus {s t : State} (h : engineStep s = .next t) (turns : List Turn)
    (rs : List Reply) : engineStep (s.withBus turns rs) = .next (t.withBus turns rs) := by
  cases hp : s.pend with
  | none =>
    rw [engineStep_idle hp] at h
    cases h
    exact engineStep_idle hp
  | some op =>
    cases hi : pendingInstr op with
    | error e => simp [engineStep, hp, hi] at h
    | ok i =>
      rw [engineStep_pending hp hi] at h
      cases h
      rw [engineStep_pending (s := s.withBus turns rs) hp hi, retire, completion_withBus]
      rfl

/-! One turn. -/

theorem decodeAt_portOf_encode (i : Instr) : decodeAt (portOf i) (encode i) = .ok i := by
  cases i with
  | pushb b => exact Laws.RoundTrip.pushb b
  | _ => rfl

/-- A word that decodes at a port, written there, delivers its instruction and is answered OKAY (R70). -/
theorem busWrite_port {p : Port} {w : Word} {i : Instr} (h : decodeAt p w = .ok i) (lat : Latency)
    (s : State) :
    busWrite p.offset .word w lat s = withReply (.ofWrite .okay) (deliver i lat s) := by
  cases p with
  | cmd =>
    have hd : decodeCmd w = .ok i := h
    have hw : writeCmd w lat s = deliver i lat s := by simp [writeCmd, hd]
    exact (busWrite_reg (r := .cmd) rfl w lat s).trans (congrArg _ hw)
  | din =>
    cases h
    exact busWrite_reg (r := .din) rfl w lat s

/-- Acceptance followed by the engine step is the whole instruction (R44); after a trap and after SRST
nothing pends, and the engine step changes nothing. -/
theorem engineStep_issue (i : Instr) (s : State) : engineStep (issue i s) = exec i s := by
  by_cases hi : i = .srst
  · subst hi
    rw [issue_srst, exec_srst, engineStep_idle (softReset_pend s)]
  · cases h : acceptance i s with
    | none =>
      rw [issue_accepted hi h, exec_accepted h,
        engineStep_pending (markPending_pend i s) (pendingInstr_operationOf i)]
    | some c =>
      rw [issue_trapped hi h, exec_trapped h]
      exact engineStep_idle rfl

/-! Runs: the turns are taken, and no others. -/

/-- The turns `turns` take the engine from `s` to `t`, whatever turns follow them and whatever replies came
before. -/
def Runs (turns : List Turn) (s t : State) : Prop :=
  ∀ rest rs, ∃ rs', steps turns.length (s.withBus (turns ++ rest) rs) = .next (t.withBus rest rs')

theorem steps_add {m : Nat} (n : Nat) : ∀ {s t : State}, steps m s = .next t →
    steps (m + n) s = steps n t := by
  induction m with
  | zero =>
    intro s t h
    cases h
    rw [Nat.zero_add]
  | succ m ih =>
    intro s t h
    rw [Nat.succ_add]
    simp only [steps] at h ⊢
    cases hs : step s with
    | next u => rw [hs] at h; exact ih h
    | fault f => rw [hs] at h; cases h
    | refused f => rw [hs] at h; cases h

theorem runs_nil (s : State) : Runs [] s s := fun _ rs => ⟨rs, rfl⟩

theorem runs_append {xs ys : List Turn} {s t u : State} (hx : Runs xs s t) (hy : Runs ys t u) :
    Runs (xs ++ ys) s u := by
  intro rest rs
  obtain ⟨rs₁, h₁⟩ := hx (ys ++ rest) rs
  obtain ⟨rs₂, h₂⟩ := hy rest rs₁
  refine ⟨rs₂, ?_⟩
  rw [List.length_append, List.append_assoc, steps_add _ h₁, h₂]

/-- A run of one turn is what `takeTurn` does. -/
theorem runs_singleton {turn : Turn} {s t : State}
    (h : ∀ rest rs, ∃ rs', takeTurn turn (s.withBus rest rs) = .next (t.withBus rest rs')) :
    Runs [turn] s t := by
  intro rest rs
  obtain ⟨rs', h'⟩ := h rest rs
  refine ⟨rs', ?_⟩
  have hs : step (s.withBus (turn :: rest) rs) = .next (t.withBus rest rs') := h'
  simp [steps, hs]

theorem runs_engine {s t : State} (h : engineStep s = .next t) : Runs [.engine] s t :=
  runs_singleton fun rest rs => ⟨rs, engineStep_withBus h rest rs⟩

/-- A legal read leaves the engine as it is (R71). -/
theorem runs_rd {r : Reg} (h : r.readable = true) (s : State) : Runs [rd r] s s :=
  runs_singleton fun rest rs =>
    ⟨_, congrArg Host.Outcome.next (busRead_reg h (s.withBus rest rs))⟩

theorem runs_replicate_rd {r : Reg} (h : r.readable = true) (n : Nat) (s : State) :
    Runs (List.replicate n (rd r)) s s := by
  induction n with
  | zero => exact runs_nil s
  | succ n ih => exact runs_append (runs_rd h s) ih

theorem runs_writeInstr (i : Instr) (s : State) : Runs [writeInstr i] s (issue i s) :=
  runs_singleton fun rest rs => ⟨.ofWrite .okay :: rs, by
    have hw := busWrite_port (decodeAt_portOf_encode i) .later (s.withBus rest rs)
    rw [deliver, issue_withBus] at hw
    exact hw⟩

/-- `WAIT` completes what pends, however often it reads `STATUS` before (R104). -/
theorem runs_waitTurns {s t : State} (h : engineStep s = .next t) (polls : Nat) :
    Runs (waitTurns polls) s t :=
  runs_append (runs_replicate_rd rfl polls s) (runs_append (runs_engine h) (runs_rd rfl t))

/-- An instruction with its `WAIT` does what the instruction does. -/
theorem runs_timedTurns (p : Timed) {s t : State} (h : exec p.1 s = .next t) :
    Runs (timedTurns p) s t :=
  runs_append (runs_writeInstr p.1 s)
    (runs_waitTurns ((engineStep_issue p.1 s).trans h) p.2)

theorem execAll_cons_next {i : Instr} {is : List Instr} {s t : State}
    (h : execAll (i :: is) s = .next t) : ∃ u, exec i s = .next u ∧ execAll is u = .next t := by
  rw [execAll] at h
  cases hi : exec i s with
  | next u => rw [hi] at h; exact ⟨u, rfl, h⟩
  | fault f => rw [hi] at h; cases h
  | refused f => rw [hi] at h; cases h

/-- A program with its WAITs does what its instructions do in order (R104). -/
theorem runs_programTurns (ps : List Timed) : ∀ {s t : State},
    execAll (ps.map Prod.fst) s = .next t → Runs (programTurns ps) s t := by
  induction ps with
  | nil =>
    intro s t h
    cases h
    exact runs_nil s
  | cons p ps ih =>
    intro s t h
    obtain ⟨u, hu, ht⟩ := execAll_cons_next h
    exact runs_append (runs_timedTurns p hu) (ih ht)

/-- Settles O11, by `runs_programTurns`: an induction on the program, one instruction and its `WAIT` at a
time. -/
theorem latencyNeverChangesTheResult : Obligations.LatencyNeverChangesTheResult := by
  unfold Obligations.LatencyNeverChangesTheResult
  intro ps s t rest _ hs h
  have hbus : s.withBus (programTurns ps ++ rest) s.replies = s := by rw [← hs]; rfl
  obtain ⟨rs, hrun⟩ := runs_programTurns ps h rest s.replies
  rw [hbus] at hrun
  exact ⟨rs, hrun⟩

end Sys2Proof.Machine
end

section
/-! SUPPORT. What one turn of either agent can do: a read, a write, a reset or the engine step. The invariant
of R46 along every run, and the host's writes against the digest registers. -/

namespace Sys2Proof.Machine

/-! What a turn can do. -/

theorem step_turn {s : State} {turn : Turn} {rest : List Turn} (h : s.agenda = turn :: rest) :
    step s = takeTurn turn { s with agenda := rest } := by simp [step, h]

theorem step_no_turn {s : State} (h : s.agenda = []) : step s = engineStep s := by simp [step, h]

/-- A read takes the ACCESS trap, or it changes nothing but the replies (R71). -/
theorem busRead_cases (off : Offset) (size : Size) (s : State) :
    busRead off size s = reply (.ofRead 0 .error) (raise .access off false 0 s) ∨
    busRead off size s = reply (.ofRead (readAt s off) .okay) s := by
  unfold busRead
  split
  · exact .inl rfl
  · exact .inr rfl

/-- A write that is not refused is a word at the offset of a writable register (R67). -/
theorem exists_reg_of_write_accepted {off : Offset} {size : Size} (h : accessRefused off size true = false) :
    size = .word ∧ ∃ r : Reg, off = r.offset ∧ r.writable = true := by
  rw [accessRefused, Bool.or_eq_false_iff] at h
  obtain ⟨hsize, hreg⟩ := h
  refine ⟨by simpa using hsize, ?_⟩
  cases hr : regAt off with
  | none => simp [hr] at hreg
  | some r => exact ⟨r, offset_of_regAt off r hr, by simpa [hr] using hreg⟩

theorem writeConfigReg_cases (r : Reg) (off : Offset) (d : Word) (s : State) :
    writeConfigReg r off d s = raise .busy off true d s ∨
    (s.pend = none ∧ writeConfigReg r off d s = writeConfig r d s) := by
  cases hb : s.busy with
  | true => exact .inl (by simp [writeConfigReg, hb])
  | false => exact .inr ⟨(busy_eq_false_iff s).1 hb, by simp [writeConfigReg, hb]⟩

/-- A write to a writable register traps, delivers the instruction in its word, or stores a configuration
register while nothing pends (R70 steps 3 to 7). -/
theorem writeReg_cases {r : Reg} (hw : r.writable = true) (d : Word) (lat : Latency) (s : State) :
    (∃ c, writeReg r r.offset d lat s = .next (raise c r.offset true d s)) ∨
    (∃ p i, r.offset = p.offset ∧ decodeAt p d = .ok i ∧ writeReg r r.offset d lat s = deliver i lat s) ∨
    (s.pend = none ∧ writeReg r r.offset d lat s = .next (writeConfig r d s)) := by
  cases r with
  | cmd =>
    cases hd : decodeCmd d with
    | ok i => exact .inr (.inl ⟨.cmd, i, rfl, hd, by simp [writeReg, writeCmd, hd]⟩)
    | error e =>
      exact .inl ⟨if s.busy then .busy else .illop, by simp only [writeReg, writeCmd, hd]; rfl⟩
  | din => exact .inr (.inl ⟨.din, decodeDin d, rfl, rfl, rfl⟩)
  | ien | cfg | b64pad | radix | alpha _ =>
    rcases writeConfigReg_cases _ _ d s with h | ⟨hp, h⟩
    · exact .inl ⟨.busy, congrArg Host.Outcome.next h⟩
    · exact .inr (.inr ⟨hp, congrArg Host.Outcome.next h⟩)
  | _ => cases hw

/-- A host's write traps, delivers the instruction in its word, or stores a configuration register while
nothing pends (R70). -/
theorem busWrite_cases (off : Offset) (size : Size) (data : Word) (lat : Latency) (s : State) :
    (∃ c d r, busWrite off size data lat s = .next (reply r (raise c off true d s))) ∨
    (∃ p i, off = p.offset ∧ decodeAt p data = .ok i ∧
      busWrite off size data lat s = withReply (.ofWrite .okay) (deliver i lat s)) ∨
    (∃ q, s.pend = none ∧
      busWrite off size data lat s = .next (reply (.ofWrite .okay) (writeConfig q data s))) := by
  cases href : accessRefused off size true with
  | true =>
    exact .inl ⟨.access, drivenData size data, .ofWrite .error, by
      simp [busWrite, href, refuseWrite, withReply]⟩
  | false =>
    obtain ⟨rfl, r, rfl, hw⟩ := exists_reg_of_write_accepted href
    rw [busWrite_reg hw]
    rcases writeReg_cases hw data lat s with ⟨c, h⟩ | ⟨p, i, hp, hd, h⟩ | ⟨hp, h⟩
    · exact .inl ⟨c, data, .ofWrite .okay, by rw [h, withReply]⟩
    · exact .inr (.inl ⟨p, i, hp, hd, by rw [h]⟩)
    · exact .inr (.inr ⟨r, hp, by rw [h, withReply]⟩)

/-! Every step keeps the invariant. -/

theorem busRead_inv {s : State} (h : s.Inv) (off : Offset) (size : Size) : (busRead off size s).Inv := by
  rcases busRead_cases off size s with hr | hr <;> rw [hr]
  · exact reply_inv (raise_keeps_inv _ _ _ _ h) _
  · exact reply_inv h _

theorem deliver_inv {s : State} (h : s.Inv) (i : Instr) (lat : Latency) :
    ∃ t, deliver i lat s = .next t ∧ t.Inv := by
  cases lat with
  | atOnce => exact exec_inv i h
  | later => exact ⟨_, rfl, issue_inv h i⟩

theorem busWrite_inv {s : State} (h : s.Inv) (off : Offset) (size : Size) (data : Word) (lat : Latency) :
    ∃ t, busWrite off size data lat s = .next t ∧ t.Inv := by
  rcases busWrite_cases off size data lat s with ⟨c, d, r, hw⟩ | ⟨p, i, -, -, hw⟩ | ⟨q, hp, hw⟩
  · exact ⟨_, hw, reply_inv (raise_keeps_inv _ _ _ _ h) r⟩
  · obtain ⟨t, ht, hinv⟩ := deliver_inv h i lat
    exact ⟨_, by rw [hw, ht, withReply], reply_inv hinv _⟩
  · exact ⟨_, hw, reply_inv (writeConfig_inv h hp q data) _⟩

theorem takeTurn_inv {s : State} (h : s.Inv) (turn : Turn) : ∃ t, takeTurn turn s = .next t ∧ t.Inv := by
  cases turn with
  | read off size => exact ⟨_, rfl, busRead_inv h off size⟩
  | write off size data lat => exact busWrite_inv h off size data lat
  | reset => exact ⟨_, rfl, hardReset_inv s⟩
  | engine => exact engine_inv h

theorem step_inv {s : State} (h : s.Inv) : ∃ t, step s = .next t ∧ t.Inv := by
  cases ha : s.agenda with
  | nil => rw [step_no_turn ha]; exact engine_inv h
  | cons turn rest => rw [step_turn ha]; exact takeTurn_inv (inv_turn h rest s.replies) turn

/-- Settles O6, by `step_inv`: a case for each kind of turn and for the engine's own step. -/
theorem everyStepKeepsInvariant : Obligations.EveryStepKeepsInvariant := by
  unfold Obligations.EveryStepKeepsInvariant
  exact fun s h => step_inv h

/-- Settles O5: the reset state is the case of `reset_like_inv` with nothing exchanged. -/
theorem resetMeetsInvariant : Obligations.ResetMeetsInvariant := by
  unfold Obligations.ResetMeetsInvariant
  exact reset_like_inv State.reset

/-- Every number of steps keeps the invariant. -/
theorem steps_inv (n : Nat) : ∀ {s t : State}, s.Inv → steps n s = .next t → t.Inv := by
  induction n with
  | zero =>
    intro s t h hst
    cases hst
    exact h
  | succ n ih =>
    intro s t h hst
    obtain ⟨u, hu, hinv⟩ := step_inv h
    rw [steps, hu] at hst
    exact ih hinv hst

theorem busy_iff (s : State) : s.busy = true ↔ s.pend ≠ none := by
  rw [State.busy, Option.isSome_iff_ne_none]

/-- Settles O7: the invariant holds at reset whatever the turns, `steps_inv` carries it along the run, and it
has the clauses of R46 as fields. -/
theorem reachableStatesMeetR46 : Obligations.ReachableStatesMeetR46 := by
  unfold Obligations.ReachableStatesMeetR46
  intro turns n t hrun
  have h : t.Inv := steps_inv n (inv_turn resetMeetsInvariant turns []) hrun
  have hout : t.outlen.toNat > 0 → t.dvalid = true := fun hpos =>
    h.outlen_dvalid fun h0 => absurd hpos (by simp [h0])
  exact ⟨h.err_iff_fault, busy_iff t, h.pend_in_fault, h.dvalid_idle, hout, h.len_range,
    h.block_tail_zero, h.capture_zero, h.key_is_hmac⟩

/-! Acceptance and completion. -/

/-- Settles O9: the write is `issue` of an accepted instruction, and the engine step after `issue` is `exec`
(`engineStep_issue`). -/
theorem engineStepCompletesAcceptedOperation : Obligations.EngineStepCompletesAcceptedOperation := by
  unfold Obligations.EngineStepCompletesAcceptedOperation
  intro i s rest hi ha
  constructor
  · intro hs
    have haccept : acceptance i { s with agenda := rest } = none :=
      (acceptance_withBus i s rest s.replies).trans ha
    rw [step_turn hs, takeTurn, busWrite_port (decodeAt_portOf_encode i), deliver,
      issue_accepted hi haccept]
    rfl
  · have h := engineStep_issue i s
    rwa [issue_accepted hi ha] at h

/-! The digest registers. -/

theorem writeConfig_h (r : Reg) (d : Word) (s : State) : (writeConfig r d s).h = s.h := by
  cases r <;> rfl

theorem busRead_h (off : Offset) (size : Size) (s : State) :
    (busRead off size s).h = s.h ∨ (busRead off size s).h = ⟨0, 0, 0, 0⟩ := by
  rcases busRead_cases off size s with hr | hr <;> rw [hr]
  · exact .inr rfl
  · exact .inl rfl

theorem issue_h (i : Instr) (s : State) : (issue i s).h = s.h ∨ (issue i s).h = ⟨0, 0, 0, 0⟩ := by
  by_cases hi : i = .srst
  · rw [hi, issue_srst]
    exact .inr rfl
  · cases ha : acceptance i s with
    | none => rw [issue_accepted hi ha]; exact .inl rfl
    | some c => rw [issue_trapped hi ha]; exact .inr rfl

theorem busWrite_later_h {off : Offset} {size : Size} {data : Word} {s t : State}
    (h : busWrite off size data .later s = .next t) : t.h = s.h ∨ t.h = ⟨0, 0, 0, 0⟩ := by
  rcases busWrite_cases off size data .later s with ⟨c, d, r, hw⟩ | ⟨p, i, -, -, hw⟩ | ⟨q, -, hw⟩ <;>
    cases hw.symm.trans h
  · exact .inr rfl
  · exact issue_h i s
  · exact .inl (writeConfig_h q data s)

/-- Settles O52: of the host's turns a read and a write that only accepts keep or clear `H`, and the reset
input clears it. -/
theorem hostNeverWritesDigestRegisters : Obligations.HostNeverWritesDigestRegisters := by
  unfold Obligations.HostNeverWritesDigestRegisters
  intro s t turn rest hs hne hlater hstep
  rw [step_turn hs] at hstep
  cases turn with
  | read off size =>
    cases hstep
    exact busRead_h off size { s with agenda := rest }
  | write off size data lat =>
    cases lat with
    | atOnce => exact absurd rfl (hlater off size data)
    | later => exact busWrite_later_h (s := { s with agenda := rest }) hstep
  | reset =>
    cases hstep
    exact .inr rfl
  | engine => exact absurd rfl hne

end Sys2Proof.Machine
end

section
/-! SUPPORT. What the host can see of the engine (STATUS, the interrupt level, the readable registers), and
what belongs to the host and no instruction changes. -/

namespace Sys2Proof.Machine

/-! STATUS and the interrupt level. -/

/-! The bits of STATUS (R32). -/

theorem status_bit_busy (s : State) : s.status.getLsbD 0 = s.busy := by
  simp only [State.status, BitVec.getLsbD_setWidth, BitVec.getLsbD_append]
  simp

theorem status_bit_dvalid (s : State) : s.status.getLsbD 1 = s.dvalid := by
  simp only [State.status, BitVec.getLsbD_setWidth, BitVec.getLsbD_append]
  simp

theorem status_bit_mode (s : State) : s.status.getLsbD 2 = s.mode.bit := by
  simp only [State.status, BitVec.getLsbD_setWidth, BitVec.getLsbD_append]
  simp

theorem status_bit_irq (s : State) : s.status.getLsbD 3 = s.irq := by
  simp only [State.status, BitVec.getLsbD_setWidth, BitVec.getLsbD_append]
  simp

/-- From bit 4 on STATUS is PHASE, and 0 beyond its two bits. -/
theorem status_bit_phase (s : State) (k : Nat) : s.status.getLsbD (4 + k) = s.phase.bits.getLsbD k := by
  simp only [State.status, BitVec.getLsbD_setWidth, BitVec.getLsbD_append]
  by_cases hk : k < 2
  · have h32 : 4 + k < 32 := by omega
    simp [h32]
  · simp [BitVec.getLsbD_of_ge s.phase.bits _ (Nat.not_lt.1 hk)]

theorem status_phase (s : State) : s.status.extractLsb' 4 2 = s.phase.bits := by
  apply BitVec.eq_of_getLsbD_eq
  intro j hj
  rw [BitVec.getLsbD_extractLsb', status_bit_phase]
  simp [hj]

theorem status_reserved (s : State) : s.status.extractLsb' 6 26 = 0 := by
  apply BitVec.eq_of_getLsbD_eq
  intro j hj
  rw [BitVec.getLsbD_extractLsb', show 6 + j = 4 + (2 + j) by omega, status_bit_phase,
    BitVec.getLsbD_of_ge s.phase.bits _ (Nat.le_add_right 2 j)]
  simp

theorem mode_bit_eq (m : Mode) : m.bit = (m == .hmac) := by cases m <;> rfl

/-- Settles O15, from the bits of STATUS one by one. -/
theorem statusWordFields : Obligations.StatusWordFields := by
  unfold Obligations.StatusWordFields
  intro s
  refine ⟨status_bit_busy s, status_bit_dvalid s, ?_, status_bit_irq s, ?_, status_reserved s⟩
  · exact (status_bit_mode s).trans (mode_bit_eq s.mode)
  · rw [status_phase]
    cases s.phase <;> rfl

theorem irq_iff (s : State) : s.irq = true ↔
    (s.rdyEnabled = true ∧ s.pend = none) ∨ (s.errEnabled = true ∧ s.err ≠ 0) := by
  simp [State.irq, busy_eq_false_iff]

/-- Settles O16. -/
theorem interruptIsALevelOfTheState : Obligations.InterruptIsALevelOfTheState := by
  unfold Obligations.InterruptIsALevelOfTheState
  exact fun s => ⟨irq_iff s, status_bit_irq s⟩

/-! The readable registers. -/

/-- Two states whose registers read alike read alike at every offset of the aperture. -/
theorem readAt_congr {s t : State} {off : Offset}
    (h : ∀ r : Reg, off = r.offset → readReg s r = readReg t r) : readAt s off = readAt t off := by
  cases hr : regAt off with
  | none => simp only [readAt, hr]
  | some r => simpa only [readAt, hr] using h r (offset_of_regAt off r hr)

theorem readReg_pend {r : Reg} (h : r ≠ .status) (p : Option Operation) (s : State) :
    readReg { s with pend := p } r = readReg s r := by
  cases r with
  | status => exact absurd rfl h
  | _ => rfl

/-- The bits of STATUS but BUSY and IRQ do not look at `PEND`. -/
theorem status_bit_pend {j : Nat} (h0 : j ≠ 0) (h3 : j ≠ 3) (p : Option Operation) (s : State) :
    { s with pend := p }.status.getLsbD j = s.status.getLsbD j := by
  match j with
  | 0 => exact absurd rfl h0
  | 1 => rw [status_bit_dvalid, status_bit_dvalid]
  | 2 => rw [status_bit_mode, status_bit_mode]
  | 3 => exact absurd rfl h3
  | k + 4 => rw [Nat.add_comm, status_bit_phase, status_bit_phase]

theorem irq_pending {s : State} (h : s.busy = true) : s.irq = (s.errEnabled && s.err != 0) := by
  simp [State.irq, h]

/-- Settles O10: no register but STATUS looks at `PEND`, and in STATUS `PEND` reaches BUSY and IRQ only. -/
theorem readsWhileBusyShowTheStateBefore : Obligations.ReadsWhileBusyShowTheStateBefore := by
  unfold Obligations.ReadsWhileBusyShowTheStateBefore
  intro s op off _
  have hoff : off ≠ 0x008 → readAt { s with pend := some op } off = readAt s off := fun hne =>
    readAt_congr fun r hr => readReg_pend (by rintro rfl; exact hne hr) (some op) s
  exact ⟨hoff, status_bit_busy _, (status_bit_irq _).trans (irq_pending rfl),
    fun j h0 h3 => status_bit_pend h0 h3 (some op) s⟩

theorem readReg_blk_key (r : Reg) (blk key : Vector Word 16) (s : State) :
    readReg { s with blk := blk, key := key } r = readReg s r := by
  cases r <;> rfl

/-- Settles O53: no register's value is computed from `BLK` or `KEY`. -/
theorem blockAndKeyAreNotReadable : Obligations.BlockAndKeyAreNotReadable := by
  unfold Obligations.BlockAndKeyAreNotReadable
  exact fun s blk key off => ⟨readAt_congr fun r _ => readReg_blk_key r blk key s, rfl⟩

/-- `OUT` is hidden at and beyond `OUTLEN` (R42). -/
theorem readReg_out_of_le {s : State} {i : Fin 128} (h : s.outlen.toNat ≤ i.val) :
    readReg s (.out i) = 0 :=
  if_neg (Nat.not_lt.2 h)

theorem readReg_reset_eq_zero {r : Reg} (hid : r ≠ .id) (ha : ∀ i, r ≠ .alpha i) :
    readReg State.reset r = 0 := by
  cases r with
  | id => exact absurd rfl hid
  | alpha i => exact absurd rfl (ha i)
  | h i => fin_cases i <;> rfl
  | out i => exact readReg_out_of_le (Nat.zero_le _)
  | _ => rfl

/-- Settles O2, register by register. -/
theorem registersReadZeroAfterReset : Obligations.RegistersReadZeroAfterReset := by
  unfold Obligations.RegistersReadZeroAfterReset
  exact ⟨fun _ _ hid ha => readReg_reset_eq_zero hid ha, rfl, rfl⟩

/-! What belongs to the host. -/

/-- What only the host's transactions change: the configuration (R36 to R40), the alphabet (R41) and the
model's record of the bus. -/
def State.hostOwned (s : State) :
    BitVec 2 × BitVec 1 × BitVec 17 × Word × Vector Code 256 × List Turn × List Reply × Nat :=
  (s.ien, s.cfg, s.b64pad, s.radix, s.alpha, s.agenda, s.replies, s.resets)

theorem hostOwned_eq_iff (s t : State) : t.hostOwned = s.hostOwned ↔
    t.ien = s.ien ∧ t.cfg = s.cfg ∧ t.b64pad = s.b64pad ∧ t.radix = s.radix ∧ t.alpha = s.alpha ∧
      t.agenda = s.agenda ∧ t.replies = s.replies ∧ t.resets = s.resets := by
  simp only [State.hostOwned, Prod.mk.injEq]

theorem absorbAll_hostOwned (bs : List Byte) : ∀ s : State, (absorbAll bs s).hostOwned = s.hostOwned := by
  induction bs with
  | nil => intro s; rfl
  | cons b bs ih => intro s; exact ih (absorb b s)

theorem completion_hostOwned {i : Instr} (hi : i ≠ .srst) (s : State) :
    (completion i s).hostOwned = s.hostOwned := by
  cases i with
  | srst => exact absurd rfl hi
  | dinw w => exact absorbAll_hostOwned (wordBytes w) s
  | _ => rfl

theorem exec_hostOwned {i : Instr} (hi : i ≠ .srst) (s : State) :
    ∃ t, exec i s = .next t ∧ t.hostOwned = s.hostOwned := by
  rcases exec_cases i s with ⟨c, -, he⟩ | ⟨-, he⟩
  · exact ⟨_, he, rfl⟩
  · exact ⟨_, he, completion_hostOwned hi (markPending i s)⟩

/-- Settles O50: trap entry and every completion but SRST's leave alone what belongs to the host. -/
theorem instructionsLeaveConfigurationAlone : Obligations.InstructionsLeaveConfigurationAlone := by
  unfold Obligations.InstructionsLeaveConfigurationAlone
  intro i s hi
  obtain ⟨t, ht, hown⟩ := exec_hostOwned hi s
  exact ⟨t, ht, (hostOwned_eq_iff s t).1 hown⟩

end Sys2Proof.Machine
end

section
/-! SUPPORT. The register aperture as the host sees it: which transactions are refused, what a legal read
returns, and what a legal write does with an operation pending and without. -/

namespace Sys2Proof.Machine

open Sys2Proof.Claims

/-! A word at its port. -/

/-- A word that decodes as a command is that command's word (R96). -/
theorem encode_of_decodeCmd {w : Word} {i : Instr} (h : decodeCmd w = .ok i) :
    encode i = w ∧ portOf i = .cmd := by
  unfold decodeCmd at h
  split at h
  next hop =>
    split at h
    next hres =>
      cases h
      exact ⟨by rw [encode, ← hop, ← eq_formatC1 hres], rfl⟩
    next => cases h
  next =>
    split at h
    next j hj =>
      split at h
      next hres =>
        cases h
        obtain ⟨henc, hport⟩ := plainCommand_encode hj
        exact ⟨henc.trans (eq_formatC0 hres).symm, hport⟩
      next => cases h
    next => cases h

theorem decodeAt_of_decodeTableWord {nbits w : Nat} {i : Instr} (h : decodeTableWord nbits w = some i) :
    decodeAt (tablePort (tableWord nbits w)) (tableWord nbits w) = .ok i := by
  unfold decodeTableWord at h
  split at h
  next j hj =>
    cases h
    exact hj
  next => cases h

/-- A step whose turn writes a word at the port where it decodes delivers the instruction (R70). -/
theorem step_write_port {s : State} {p : Port} {w : Word} {i : Instr} {lat : Latency} {rest : List Turn}
    (hs : s.agenda = .write p.offset .word w lat :: rest) (h : decodeAt p w = .ok i) :
    step s = withReply (.ofWrite .okay) (deliver i lat { s with agenda := rest }) := by
  rw [step_turn hs, takeTurn, busWrite_port h]

/-- Settles O8: both writes put a word at a port where it decodes (`step_write_port`), and a delivery at once
is `exec`. -/
theorem stepRunsTheDecodedInstruction : Obligations.StepRunsTheDecodedInstruction := by
  unfold Obligations.StepRunsTheDecodedInstruction
  constructor
  · intro i s rest hs
    exact step_write_port hs (decodeAt_portOf_encode i)
  · intro i s nbits w h
    exact step_write_port (s := s.withFetchWord nbits w) rfl (decodeAt_of_decodeTableWord h)

/-! Which transactions are refused (R61, R67). -/

theorem lowReg_eq_none {n : Nat} (h : 0x50 ≤ n) : lowReg n = none := by
  unfold lowReg
  repeat rw [if_neg (by omega)]

/-- The readable offsets of R61 below `0x400`. -/
theorem lowReg_readable_iff (n : Nat) :
    (lowReg n).any Reg.readable = true ↔ n % 4 = 0 ∧ (8 ≤ n ∧ n ≤ 0x30 ∨ 0x40 ≤ n ∧ n ≤ 0x4C) := by
  by_cases h : n < 0x50
  · revert n; decide
  · rw [lowReg_eq_none (Nat.not_lt.1 h)]
    simp only [Option.any_none, Bool.false_eq_true, false_iff]
    omega

/-- The writable offsets of R61 below `0x400`. -/
theorem lowReg_writable_iff (n : Nat) :
    (lowReg n).any Reg.writable = true ↔ n % 4 = 0 ∧ (n ≤ 4 ∨ 0x1C ≤ n ∧ n ≤ 0x28) := by
  by_cases h : n < 0x50
  · revert n; decide
  · rw [lowReg_eq_none (Nat.not_lt.1 h)]
    simp only [Option.any_none, Bool.false_eq_true, false_iff]
    omega

theorem regAt_readable_iff (off : Offset) :
    (regAt off).any Reg.readable = true ↔ readableOffset off.toNat := by
  simp only [regAt, readableOffset]
  split_ifs with h4 hlow halpha hout hid
  · simp [h4]
  · rw [lowReg_readable_iff]; omega
  all_goals simp [Reg.readable]; omega

theorem regAt_writable_iff (off : Offset) :
    (regAt off).any Reg.writable = true ↔ writableOffset off.toNat := by
  simp only [regAt, writableOffset]
  split_ifs with h4 hlow halpha hout hid
  · simp [h4]
  · rw [lowReg_writable_iff]; omega
  all_goals simp [Reg.writable]; omega

theorem accessRefused_read_iff (off : Offset) (size : Size) :
    accessRefused off size false = true ↔ ¬ (size = .word ∧ readableOffset off.toNat) := by
  rw [← regAt_readable_iff]
  cases hr : regAt off <;> simp [accessRefused, hr, ← imp_iff_not_or]

theorem accessRefused_write_iff (off : Offset) (size : Size) :
    accessRefused off size true = true ↔ ¬ (size = .word ∧ writableOffset off.toNat) := by
  rw [← regAt_writable_iff]
  cases hr : regAt off <;> simp [accessRefused, hr, ← imp_iff_not_or]

theorem busRead_refused {off : Offset} {size : Size} (h : accessRefused off size false = true) (s : State) :
    busRead off size s = reply (.ofRead 0 .error) (raise .access off false 0 s) := by
  rw [busRead, if_pos h]

theorem busRead_word {off : Offset} (h : readableOffset off.toNat) (s : State) :
    busRead off .word s = reply (.ofRead (readAt s off) .okay) s := by
  rw [busRead, if_neg fun href => (accessRefused_read_iff off .word).1 href ⟨rfl, h⟩]

theorem busWrite_refused {off : Offset} {size : Size} (h : accessRefused off size true = true) (data : Word)
    (lat : Latency) (s : State) : busWrite off size data lat s =
      .next (reply (.ofWrite .error) (raise .access off true (drivenData size data) s)) := by
  rw [busWrite, if_pos h]
  rfl

/-- A writable offset of R61 is the offset of a register that may be written. -/
theorem exists_reg_of_writableOffset {off : Offset} (h : writableOffset off.toNat) :
    ∃ r : Reg, off = r.offset ∧ r.writable = true := by
  have hok : accessRefused off .word true = false :=
    Bool.eq_false_iff.2 fun href => (accessRefused_write_iff off .word).1 href ⟨rfl, h⟩
  exact (exists_reg_of_write_accepted hok).2

/-- Settles O12: what the aperture refuses is what R61 does not list. -/
theorem refusedTransactionTakesAccessTrap : Obligations.RefusedTransactionTakesAccessTrap := by
  unfold Obligations.RefusedTransactionTakesAccessTrap
  intro s off size rest
  constructor
  · intro hs hnot
    rw [step_turn hs, takeTurn, busRead_refused ((accessRefused_read_iff off size).2 hnot)]
  · intro data lat hs hnot
    rw [step_turn hs, takeTurn, busWrite_refused ((accessRefused_write_iff off size).2 hnot)]

/-! What a legal read returns (R71). -/

/-- Settles O13: a legal read adds its reply, and `readAt` does not look at the turns to come. -/
theorem legalReadChangesNothing : Obligations.LegalReadChangesNothing := by
  unfold Obligations.LegalReadChangesNothing
  intro s off rest hs hoff
  rw [step_turn hs, takeTurn, busRead_word hoff]
  have hread : readAt { s with agenda := rest } off = readAt s off :=
    readAt_congr fun r _ => by cases r <;> rfl
  rw [hread]
  rfl

theorem readAt_offset (s : State) (r : Reg) : readAt s r.offset = readReg s r := by
  rw [readAt, regAt_offset]

/-- Settles O14: each offset of R92 is a register's, and `readAt_offset` reads that register. -/
theorem registersReadAtTheirOffsets : Obligations.RegistersReadAtTheirOffsets := by
  unfold Obligations.RegistersReadAtTheirOffsets
  intro s
  exact ⟨readAt_offset s .status, readAt_offset s .err, readAt_offset s .ecause, readAt_offset s .eaddr,
    readAt_offset s .edata, readAt_offset s .ien, readAt_offset s .cfg, readAt_offset s .b64pad,
    readAt_offset s .radix, readAt_offset s .len, readAt_offset s .outlen, readAt_offset s (.h 0),
    readAt_offset s (.h 1), readAt_offset s (.h 2), readAt_offset s (.h 3), readAt_offset s .id,
    fun i => readAt_offset s (.alpha i), fun i => readAt_offset s (.out i)⟩

/-! Writes while nothing pends (R66, R70 step 5). -/

/-- Every register that may be written, but the two ports, is a configuration register. -/
theorem writeReg_config {r : Reg} (hw : r.writable = true) (hcmd : r ≠ .cmd) (hdin : r ≠ .din)
    (off : Offset) (data : Word) (lat : Latency) (s : State) :
    writeReg r off data lat s = .next (writeConfigReg r off data s) := by
  cases r with
  | cmd => exact absurd rfl hcmd
  | din => exact absurd rfl hdin
  | ien | cfg | b64pad | radix | alpha _ => rfl
  | _ => cases hw

/-- A configuration write while nothing pends stores the register and is answered OKAY. -/
theorem step_writeConfig {s : State} {r : Reg} {data : Word} {lat : Latency} {rest : List Turn}
    (hw : r.writable = true) (hcmd : r ≠ .cmd) (hdin : r ≠ .din) (hp : s.pend = none)
    (hs : s.agenda = .write r.offset .word data lat :: rest) :
    step s = .next (reply (.ofWrite .okay) (writeConfig r data { s with agenda := rest })) := by
  rw [step_turn hs, takeTurn, busWrite_reg hw, writeReg_config hw hcmd hdin,
    writeConfigReg_idle (s := { s with agenda := rest }) hp, withReply]

/-- A configuration write while nothing pends, with the state it leaves and what the register then reads. -/
theorem step_writeConfig_readAt {s t : State} {r : Reg} {data v : Word} {lat : Latency} {rest : List Turn}
    (hw : r.writable = true) (hcmd : r ≠ .cmd) (hdin : r ≠ .din) (hp : s.pend = none)
    (hs : s.agenda = .write r.offset .word data lat :: rest)
    (ht : reply (.ofWrite .okay) (writeConfig r data { s with agenda := rest }) = t)
    (hv : readReg t r = v) : ∃ u, step s = .next u ∧ u = t ∧ readAt u r.offset = v := by
  refine ⟨t, ?_, rfl, ?_⟩
  · rw [step_writeConfig hw hcmd hdin hp hs, ht]
  · rw [readAt_offset, hv]

/-- The alphabet entry just written is the one read back (R41). -/
theorem readReg_alpha_set (s : State) (i : Fin 256) (c : Code) :
    readReg { s with alpha := s.alpha.set i c } (.alpha i) = c.setWidth 32 := by
  simp [readReg, Vector.get_eq_getElem]

/-- Settles O17, register by register: `step_writeConfig` for the store and `stored_field` for what the
register then reads. -/
theorem configurationWriteStoresItsFields : Obligations.ConfigurationWriteStoresItsFields := by
  unfold Obligations.ConfigurationWriteStoresItsFields
  intro s data lat rest hp
  refine ⟨fun hs => ?ien, fun hs => ?cfg, fun hs => ?b64pad, fun hs => ?radix, fun i hs => ?alpha⟩
  case ien =>
    exact step_writeConfig_readAt (r := .ien) rfl nofun nofun hp hs rfl (stored_field data 2 _ (by decide))
  case cfg =>
    exact step_writeConfig_readAt (r := .cfg) rfl nofun nofun hp hs rfl (stored_field data 1 _ (by decide))
  case b64pad =>
    exact step_writeConfig_readAt (r := .b64pad) rfl nofun nofun hp hs rfl
      (stored_field data 17 _ (by decide))
  case radix => exact step_writeConfig_readAt (r := .radix) rfl nofun nofun hp hs rfl rfl
  case alpha =>
    exact step_writeConfig_readAt (r := .alpha i) rfl nofun nofun hp hs rfl
      ((readReg_alpha_set s i _).trans (stored_field data 16 _ (by decide)))

/-! Writes while an operation pends (R70 step 4, R304). -/

theorem deliver_busy {i : Instr} {s : State} (hi : i ≠ .srst) (hb : s.pend ≠ none) (lat : Latency) :
    deliver i lat s = .next (raiseFor i .busy s) := by
  have ha := acceptance_of_busy hi hb
  cases lat with
  | atOnce => exact exec_trapped ha
  | later => rw [deliver, issue_trapped hi ha]

theorem writeConfigReg_busy {s : State} (hb : s.pend ≠ none) (r : Reg) (off : Offset) (data : Word) :
    writeConfigReg r off data s = raise .busy off true data s := by
  rw [writeConfigReg, if_pos ((busy_iff s).2 hb)]

/-- Any word written to `CMD` but SRST's takes the BUSY trap, a word that is no command too. -/
theorem writeCmd_busy {data : Word} {s : State} (hd : data ≠ 0x0000000F) (hb : s.pend ≠ none)
    (lat : Latency) : writeCmd data lat s = .next (raise .busy Port.cmd.offset true data s) := by
  cases h : decodeCmd data with
  | error e => simp only [writeCmd, h, refuseWord, (busy_iff s).2 hb, if_true]
  | ok i =>
    obtain ⟨henc, hport⟩ := encode_of_decodeCmd h
    have hi : i ≠ .srst := by
      rintro rfl
      exact hd henc.symm
    simp only [writeCmd, h, deliver_busy hi hb, raiseFor, henc, hport]

theorem writeReg_busy {r : Reg} {data : Word} {s : State} (hw : r.writable = true)
    (hd : ¬ (r = .cmd ∧ data = 0x0000000F)) (hb : s.pend ≠ none) (lat : Latency) :
    writeReg r r.offset data lat s = .next (raise .busy r.offset true data s) := by
  by_cases hcmd : r = .cmd
  · subst hcmd
    exact writeCmd_busy (fun h => hd ⟨rfl, h⟩) hb lat
  by_cases hdin : r = .din
  · subst hdin
    exact deliver_busy (i := .dinw data) nofun hb lat
  rw [writeReg_config hw hcmd hdin, writeConfigReg_busy hb]

/-- Settles O18: a writable offset is a register's, and `writeReg_busy` splits on the register. -/
theorem writeWhileBusyTakesBusyTrap : Obligations.WriteWhileBusyTakesBusyTrap := by
  unfold Obligations.WriteWhileBusyTakesBusyTrap
  intro s off data lat rest hb hs hoff hd
  obtain ⟨r, rfl, hw⟩ := exists_reg_of_writableOffset hoff
  have hd' : ¬ (r = .cmd ∧ data = 0x0000000F) := by
    rintro ⟨rfl, h⟩
    exact hd ⟨rfl, h⟩
  rw [step_turn hs, takeTurn, busWrite_reg hw,
    writeReg_busy (s := { s with agenda := rest }) hw hd' hb, withReply]

end Sys2Proof.Machine
end

section
/-! SUPPORT. The decoder against the table of R98, in both directions, and the traps of an illegal word and of
an instruction in the wrong phase. -/

namespace Sys2Proof.Machine

open Sys2Proof.Claims

/-! The decoder and the encoder are inverse to each other (R96, R98). -/

/-- Settles O54: `decodeAt_portOf_encode` splits on the instruction; only PUSHB has a field to extract. -/
theorem decodeOfEncodeIsTheInstruction : Obligations.DecodeOfEncodeIsTheInstruction := by
  unfold Obligations.DecodeOfEncodeIsTheInstruction
  exact decodeAt_portOf_encode

/-- Settles O55: `encode_of_decodeCmd` for a command word, and a data word is its own encoding (R95). -/
theorem encodeOfDecodeIsTheWord : Obligations.EncodeOfDecodeIsTheWord := by
  unfold Obligations.EncodeOfDecodeIsTheWord
  intro p w i h
  cases p with
  | cmd => exact (encode_of_decodeCmd h).symm
  | din =>
    cases h
    exact ⟨rfl, rfl⟩

/-- Settles O57: the legal words are those of their instructions, and the illegal ones are computed. -/
theorem writtenOutWordsDecode : Obligations.WrittenOutWordsDecode := by
  unfold Obligations.WrittenOutWordsDecode
  exact ⟨decodeAt_portOf_encode .hinit, decodeAt_portOf_encode (.pushb 0x61),
    decodeAt_portOf_encode .kdone, decodeAt_portOf_encode .erdx, decodeAt_portOf_encode .clrf,
    decodeAt_portOf_encode (.dinw 0x65646362), rfl, rfl, rfl⟩

/-! The rows of R98 are the words of the eleven commands. -/

/-- The mask of the PUSHB row covers all of a C1 word but `imm8` (R94). -/
theorem formatC1_and_mask (op b : Byte) : formatC1 op b &&& 0xFFFF00FF = formatC0 op := by
  have hmask : ∀ j < 32, (0xFFFF00FF : Word).getLsbD j = !(decide (8 ≤ j) && decide (j < 16)) := by decide
  apply BitVec.eq_of_getLsbD_eq
  intro j hj
  simp only [formatC0, formatC1, BitVec.getLsbD_and, BitVec.getLsbD_or, BitVec.getLsbD_shiftLeft,
    BitVec.getLsbD_setWidth, hmask j hj]
  by_cases h8 : j < 8
  · simp [h8]
  · by_cases h16 : j < 16
    · simp [h16, Nat.le_of_not_lt h8]
    · have hop : op.getLsbD j = false := BitVec.getLsbD_of_ge op j (by omega)
      have hb : b.getLsbD (j - 8) = false := BitVec.getLsbD_of_ge b (j - 8) (by omega)
      simp [hop, hb]

/-- A row whose mask covers the whole word is selected by its pattern alone (R93). -/
theorem pattern_eq_of_selects {p w : Word} (h : OpcodeRow.selects ⟨p, 0xFFFFFFFF⟩ w = true) : p = w :=
  (eq_of_beq h).symm.trans BitVec.and_allOnes

theorem encode_pushb_selects (b : Byte) :
    OpcodeRow.selects ⟨0x00000004, 0xFFFF00FF⟩ (encode (.pushb b)) = true :=
  beq_iff_eq.2 (formatC1_and_mask 0x04 b)

/-- A word that selects the PUSHB row is the word of PUSHB with the byte in its `imm8` field. -/
theorem encode_pushb_of_selects {w : Word}
    (h : OpcodeRow.selects ⟨0x00000004, 0xFFFF00FF⟩ w = true) : encode (.pushb (imm8Field w)) = w := by
  have hw : w &&& 0xFFFF00FF = 0x00000004 := eq_of_beq h
  have hop : opcodeField w = 0x04 := by
    have hlow := congrArg (BitVec.extractLsb' 0 8) hw
    rw [BitVec.extractLsb'_and] at hlow
    exact BitVec.and_allOnes.symm.trans hlow
  have hres : w.extractLsb' 16 16 = 0 := by
    have hhigh := congrArg (BitVec.extractLsb' 16 16) hw
    rw [BitVec.extractLsb'_and] at hhigh
    exact BitVec.and_allOnes.symm.trans hhigh
  rw [encode, ← hop]
  exact (eq_formatC1 hres).symm

/-- The well-formed command words are the words of the instructions that are written to `CMD`. -/
theorem wellFormedCommand_iff (w : Word) :
    wellFormedCommand w = true ↔ ∃ i, portOf i = .cmd ∧ encode i = w := by
  constructor
  · intro h
    obtain ⟨r, hr, hsel⟩ := List.any_eq_true.1 h
    simp only [commandRows, List.cons_append, List.nil_append, List.mem_cons, List.not_mem_nil,
      or_false] at hr
    rcases hr with rfl | rfl | rfl | rfl | rfl | rfl | rfl | rfl | rfl | rfl | rfl
    · exact ⟨.nop, rfl, pattern_eq_of_selects hsel⟩
    · exact ⟨.hinit, rfl, pattern_eq_of_selects hsel⟩
    · exact ⟨.kinit, rfl, pattern_eq_of_selects hsel⟩
    · exact ⟨.kdone, rfl, pattern_eq_of_selects hsel⟩
    · exact ⟨.pushb (imm8Field w), rfl, encode_pushb_of_selects hsel⟩
    · exact ⟨.final, rfl, pattern_eq_of_selects hsel⟩
    · exact ⟨.ehex, rfl, pattern_eq_of_selects hsel⟩
    · exact ⟨.eb64, rfl, pattern_eq_of_selects hsel⟩
    · exact ⟨.erdx, rfl, pattern_eq_of_selects hsel⟩
    · exact ⟨.clrf, rfl, pattern_eq_of_selects hsel⟩
    · exact ⟨.srst, rfl, pattern_eq_of_selects hsel⟩
  · rintro ⟨i, hport, rfl⟩
    cases i with
    | dinw data => cases hport
    | pushb b => exact List.any_eq_true.2 ⟨_, by decide, encode_pushb_selects b⟩
    | _ => decide

/-- A word decodes as a command exactly when it is well formed (R96, R97). -/
theorem decodeCmd_ok_iff (w : Word) : (∃ i, decodeCmd w = .ok i) ↔ wellFormedCommand w = true := by
  rw [wellFormedCommand_iff]
  constructor
  · rintro ⟨i, h⟩
    exact ⟨i, (encode_of_decodeCmd h).symm⟩
  · rintro ⟨i, hport, rfl⟩
    have h := decodeAt_portOf_encode i
    rw [hport] at h
    exact ⟨i, h⟩

/-- Every row's mask covers the opcode, and its pattern is the opcode alone: a word can select only the row
of its opcode. -/
theorem pattern_of_selects {r : OpcodeRow} (hr : r ∈ commandRows) {w : Word} (h : r.selects w = true) :
    r.pattern = w &&& 0xFF := by
  have hrow : ∀ r ∈ commandRows, r.mask &&& 0xFF = 0xFF ∧ r.pattern &&& 0xFF = r.pattern := by decide
  obtain ⟨hmask, hpattern⟩ := hrow r hr
  have hw : w &&& r.mask = r.pattern := eq_of_beq h
  rw [← hpattern, ← hw, BitVec.and_assoc, hmask]

/-- No word selects two rows: the rows' patterns are all different. -/
theorem selected_rows_length_le (w : Word) : (commandRows.filter fun r => r.selects w).length ≤ 1 := by
  have hdistinct : (commandRows.map OpcodeRow.pattern).Nodup := by decide
  calc (commandRows.filter fun r => r.selects w).length
      = commandRows.countP fun r => r.selects w := List.countP_eq_length_filter.symm
    _ ≤ commandRows.countP fun r => r.pattern == w &&& 0xFF :=
        List.countP_mono_left fun r hr h => beq_iff_eq.2 (pattern_of_selects hr h)
    _ = (commandRows.map OpcodeRow.pattern).count (w &&& 0xFF) := by rw [List.count, List.countP_map]; rfl
    _ ≤ 1 := List.nodup_iff_count_le_one.1 hdistinct _

/-- Settles O56, by `decodeCmd_ok_iff` and `selected_rows_length_le`. -/
theorem decoderAcceptsExactlyTheTable : Obligations.DecoderAcceptsExactlyTheTable := by
  unfold Obligations.DecoderAcceptsExactlyTheTable
  exact fun w => ⟨decodeCmd_ok_iff w, selected_rows_length_le w⟩

/-! A word that is no command (R97, R101). -/

theorem decodeCmd_error_of_not_wellFormed {w : Word} (h : wellFormedCommand w = false) :
    ∃ e, decodeCmd w = .error e := by
  cases hd : decodeCmd w with
  | error e => exact ⟨e, rfl⟩
  | ok i =>
    have hwf := (decodeCmd_ok_iff w).1 ⟨i, hd⟩
    rw [h] at hwf
    cases hwf

theorem writeCmd_illegal {data : Word} {s : State} (hp : s.pend = none)
    (h : wellFormedCommand data = false) (lat : Latency) :
    writeCmd data lat s = .next (raise .illop Port.cmd.offset true data s) := by
  obtain ⟨e, hd⟩ := decodeCmd_error_of_not_wellFormed h
  simp [writeCmd, hd, refuseWord, (busy_eq_false_iff s).2 hp]

/-- Settles O19: `CMD` is offset 0, and `writeCmd_illegal` refuses the word there. -/
theorem illegalCommandWordTakesIllopTrap : Obligations.IllegalCommandWordTakesIllopTrap := by
  unfold Obligations.IllegalCommandWordTakesIllopTrap
  intro s data lat rest hp hs hwf
  have hwrite : busWrite Reg.cmd.offset .word data lat { s with agenda := rest } =
      withReply (.ofWrite .okay) (writeCmd data lat { s with agenda := rest }) := busWrite_reg rfl data lat _
  rw [writeCmd_illegal (s := { s with agenda := rest }) hp hwf] at hwrite
  exact (step_turn hs).trans hwrite

/-! An instruction in the wrong phase (R99, R304). -/

/-- The acceptance test of the phase is the table of R99. -/
theorem legalNow_iff (i : Instr) (s : State) : legalNow i s = true ↔ legalIn s.phase s.dvalid i := by
  cases i with
  | nop | clrf | srst => simp [legalNow, legalIn]
  | hinit | kinit => cases hp : s.phase <;> simp [legalNow, legalIn, hp]
  | kdone | final | pushb _ | dinw _ | ehex | eb64 | erdx => simp [legalNow, legalIn]

/-- With nothing pending the phase is tested before the operands (R304). -/
theorem acceptance_of_illegal_phase {i : Instr} {s : State} (hp : s.pend = none)
    (h : ¬ legalIn s.phase s.dvalid i) : acceptance i s = some .seq := by
  have hi : i ≠ .srst := by
    rintro rfl
    exact h trivial
  have hlegal : legalNow i s = false := Bool.eq_false_iff.2 (mt (legalNow_iff i s).1 h)
  simp [acceptance, hi, (busy_eq_false_iff s).2 hp, hlegal]

/-- Settles O22, by `acceptance_of_illegal_phase`. -/
theorem illegalPhaseTakesSeqTrap : Obligations.IllegalPhaseTakesSeqTrap := by
  unfold Obligations.IllegalPhaseTakesSeqTrap
  exact fun i s hp h => exec_trapped (acceptance_of_illegal_phase hp h)

end Sys2Proof.Machine
end

section
/-! SUPPORT. The byte-string codec (spec 40_byte_string_codec.md): every code point of a text of 16-bit units
is representable, and a code point of ASCII is its own byte. -/

namespace Sys2Proof.Machine

/-! The code points of a text (R123). -/

theorem pairPoint_le (lead trail : Code) : pairPoint lead trail ≤ 0x10FFFF := by
  unfold pairPoint
  omega

/-- A text's code points are units and surrogate pairs, so none is above `0x10FFFF` (R126). -/
theorem codePoints_le (text : List Code) : ∀ x ∈ codePoints text, x ≤ 0x10FFFF := by
  have unit_le (u : Code) : u.toNat ≤ 0x10FFFF := by omega
  induction text using codePoints.induct with
  | case1 => simp [codePoints]
  | case2 u => simpa [codePoints] using unit_le u
  | case3 u v rest hpair ih => simpa [codePoints, hpair] using ⟨pairPoint_le u v, ih⟩
  | case4 u v rest hpair ih => simpa [codePoints, hpair] using ⟨unit_le u, ih⟩

/-- A unit that is no lead surrogate stands for itself, whatever follows it (R122). -/
theorem codePoints_cons_of_not_lead {u : Code} (h : isLead u = false) (rest : List Code) :
    codePoints (u :: rest) = u.toNat :: codePoints rest := by
  cases rest <;> simp [codePoints, h]

theorem isLead_of_ascii {u : Code} (h : u.toNat ≤ 0x7F) : isLead u = false := by
  simp [isLead]
  omega

/-! The bytes of a code point (R122). -/

/-- The four-byte ceiling is the only limit of the codec (R126). -/
theorem encodePoint_of_le {x : Nat} (h : x ≤ 0x1FFFFF) : ∃ bytes, encodePoint x = .ok bytes := by
  unfold encodePoint
  split_ifs
  all_goals exact ⟨_, rfl⟩

theorem encodePoint_ascii {x : Nat} (h : x ≤ 0x7F) : encodePoint x = .ok [BitVec.ofNat 8 x] := if_pos h

/-! The bytes of a list of code points. -/

theorem encodePoints_cons_of_ok {x : Nat} {xs : List Nat} {bytes rest : List Byte}
    (hx : encodePoint x = .ok bytes) (hxs : encodePoints xs = .ok rest) :
    encodePoints (x :: xs) = .ok (bytes ++ rest) := by
  simp [encodePoints, hx, hxs]

theorem encodePoints_of_le {xs : List Nat} (h : ∀ x ∈ xs, x ≤ 0x1FFFFF) :
    ∃ bytes, encodePoints xs = .ok bytes := by
  induction xs with
  | nil => exact ⟨[], rfl⟩
  | cons x xs ih =>
    obtain ⟨hx, hxs⟩ := List.forall_mem_cons.1 h
    obtain ⟨bytes, hbytes⟩ := encodePoint_of_le hx
    obtain ⟨rest, hrest⟩ := ih hxs
    exact ⟨_, encodePoints_cons_of_ok hbytes hrest⟩

/-! The bytes of a text. -/

theorem ofNat_toNat_eq_lowByte (u : Code) : BitVec.ofNat 8 u.toNat = lowByte u := rfl

/-- An ASCII unit in front of a text adds its low byte in front of the text's bytes (R122). -/
theorem textToUtf8Bytes_cons_ascii {u : Code} {rest : List Code} {bytes : List Byte} (hu : u.toNat ≤ 0x7F)
    (h : textToUtf8Bytes rest = .ok bytes) : textToUtf8Bytes (u :: rest) = .ok (lowByte u :: bytes) := by
  unfold textToUtf8Bytes at h ⊢
  rw [codePoints_cons_of_not_lead (isLead_of_ascii hu), encodePoints_cons_of_ok (encodePoint_ascii hu) h,
    ofNat_toNat_eq_lowByte, List.singleton_append]

theorem textToUtf8Bytes_ascii {text : List Code} (h : ∀ u ∈ text, u.toNat ≤ 0x7F) :
    textToUtf8Bytes text = .ok (text.map lowByte) := by
  induction text with
  | nil => rfl
  | cons u rest ih =>
    obtain ⟨hu, hrest⟩ := List.forall_mem_cons.1 h
    exact textToUtf8Bytes_cons_ascii hu (ih hrest)

/-- `UnsupportedInput` is unreachable from 16-bit units (R126). -/
theorem textToUtf8Bytes_ok (text : List Code) : ∃ bytes, textToUtf8Bytes text = .ok bytes :=
  encodePoints_of_le fun x hx => (codePoints_le text x hx).trans (by decide)

/-- Settles O58: `codePoints_le` keeps every code point below the ceiling of `encodePoint_of_le`, and a text of
ASCII units is encoded unit by unit (`textToUtf8Bytes_cons_ascii`). -/
theorem everyTextHasUtf8Bytes : Obligations.EveryTextHasUtf8Bytes := by
  unfold Obligations.EveryTextHasUtf8Bytes
  exact ⟨textToUtf8Bytes_ok, fun _ => textToUtf8Bytes_ascii⟩

end Sys2Proof.Machine
end

section
/-! SUPPORT. Packing (spec 41_word_packer.md): a word and a block are determined by their bytes, and packing and
unpacking are inverse to each other. -/

namespace Sys2Proof.Machine

/-! Words and blocks by their bytes (R10, R23). -/

theorem byteOf_getLsbD (w : Word) (k : Nat) {n : Nat} (hn : n < 8) :
    (byteOf w k).getLsbD n = w.getLsbD (8 * k + n) := by
  simp [byteOf, hn]

/-- A word is determined by its four bytes. -/
theorem word_ext_bytes {v w : Word} (h : ∀ k, k < 4 → byteOf v k = byteOf w k) : v = w := by
  apply BitVec.eq_of_getLsbD_eq
  intro j hj
  have hbyte := congrArg (·.getLsbD (j % 8)) (h (j / 8) (by omega))
  simpa [byteOf_getLsbD _ _ (Nat.mod_lt j (by decide : 0 < 8)), Nat.div_add_mod] using hbyte

theorem wordBytes_getD (w : Word) {k : Nat} (hk : k < 4) : (wordBytes w).getD k 0 = byteOf w k := by
  have hcases : k = 0 ∨ k = 1 ∨ k = 2 ∨ k = 3 := by omega
  rcases hcases with rfl | rfl | rfl | rfl <;> rfl

theorem wordBytes_injective {v w : Word} (h : wordBytes v = wordBytes w) : v = w :=
  word_ext_bytes fun k hk => by rw [← wordBytes_getD v hk, ← wordBytes_getD w hk, h]

/-- A block is determined by its 64 bytes. -/
theorem block_ext_bytes {x y : Vector Word 16} (h : ∀ q : Fin 64, blockByte x q = blockByte y q) : x = y := by
  apply Vector.ext
  intro i hi
  apply word_ext_bytes
  intro k hk
  have hq := h ⟨4 * i + k, by omega⟩
  have hword : (4 * i + k) / 4 = i := by omega
  have hlane : (4 * i + k) % 4 = k := by omega
  simpa [blockByte, wordIndex, Vector.get_eq_getElem, hword, hlane] using hq

theorem blockByte_set (blk : Vector Word 16) (j : Fin 16) (w : Word) (q : Fin 64) :
    blockByte (blk.set j w) q = if q.val / 4 = j.val then byteOf w (q.val % 4) else blockByte blk q := by
  simp only [blockByte, wordIndex, Vector.get_eq_getElem, Vector.getElem_set, eq_comm (a := j.val)]
  split <;> rfl

theorem blockByte_orByte_position {p : Fin 64} {n : Nat} (hn : p.val = n) (blk : Vector Word 16) (b : Byte)
    (q : Fin 64) : blockByte (orByte blk p b) q = if q.val = n then blockByte blk q ||| b else blockByte blk q := by
  subst hn
  rw [blockByte_orByte]
  by_cases h : q = p
  · rw [if_pos h, if_pos (congrArg Fin.val h), h]
  · rw [if_neg h, if_neg (mt Fin.ext h)]

theorem zeroBlock_eq_replicate : zeroBlock = Vector.replicate 16 0 := by
  apply Vector.ext
  intro i hi
  simp [zeroBlock]

/-! Packing and unpacking (R140, R142, R143). -/

theorem wordBytes_pack (b0 b1 b2 b3 : Byte) :
    wordBytes (byteAt b0 0 ||| byteAt b1 1 ||| byteAt b2 2 ||| byteAt b3 3) = [b0, b1, b2, b3] := by
  simp [wordBytes, byteOf_or, byteOf_byteAt]

theorem wordsToBytes_cons (w : Word) (ws : List Word) : wordsToBytes (w :: ws) = wordBytes w ++ wordsToBytes ws :=
  rfl

theorem wordsToBytes_bytesToWords (m : List Byte) :
    wordsToBytes (bytesToWords m) = m ++ List.replicate ((4 - m.length % 4) % 4) 0 := by
  induction m using bytesToWords.induct with
  | case1 => rfl
  | case2 b0 => simp [bytesToWords, wordsToBytes, wordBytes, byteOf_byteAt, List.replicate]
  | case3 b0 b1 => simp [bytesToWords, wordsToBytes, wordBytes, byteOf_or, byteOf_byteAt, List.replicate]
  | case4 b0 b1 b2 => simp [bytesToWords, wordsToBytes, wordBytes, byteOf_or, byteOf_byteAt]
  | case5 b0 b1 b2 b3 rest ih =>
    have hmod : (rest.length + 4) % 4 = rest.length % 4 := Nat.add_mod_right _ _
    rw [bytesToWords, wordsToBytes_cons, wordBytes_pack, ih]
    simp [hmod]

/-- Four bytes in lane order are packed into the word they came from. -/
theorem bytesToWords_wordBytes_append (w : Word) (bytes : List Byte) :
    bytesToWords (wordBytes w ++ bytes) = w :: bytesToWords bytes :=
  congrArg (· :: bytesToWords bytes) (wordBytes_injective (wordBytes_pack _ _ _ _))

theorem bytesToWords_wordsToBytes (ws : List Word) : bytesToWords (wordsToBytes ws) = ws := by
  induction ws with
  | nil => rfl
  | cons w ws ih => rw [wordsToBytes_cons, bytesToWords_wordBytes_append, ih]

/-- Settles O43, by an induction over the bytes four at a time and one over the words. -/
theorem packingRoundTrips : Obligations.PackingRoundTrips := by
  unfold Obligations.PackingRoundTrips
  exact ⟨wordsToBytes_bytesToWords, bytesToWords_wordsToBytes⟩

end Sys2Proof.Machine
end

section
/-! SUPPORT. The data-input instructions (spec 41_word_packer.md): what an open context accepts and refuses, and
what absorbing bytes does to the block and to the key block, byte by byte. -/

namespace Sys2Proof.Machine

open Sys2Proof.Claims

/-! What an open context accepts and refuses (R145, R146, R349). -/

theorem ne_srst_of_isPush {i : Instr} (h : isPush i) : i ≠ .srst := by
  rcases h with ⟨b, rfl⟩ | ⟨w, rfl⟩ <;> exact Instr.noConfusion

theorem overflowsLen_iff {i : Instr} (h : isPush i) (s : State) :
    overflowsLen i s = true ↔ s.len.toNat + pushCount i > 2 ^ 29 - 1 := by
  rcases h with ⟨b, rfl⟩ | ⟨w, rfl⟩ <;> simp [overflowsLen, pushCount, Config.lenMax]

theorem refusesRadix_of_isPush {i : Instr} (h : isPush i) (s : State) : refusesRadix i s = false := by
  rcases h with ⟨b, rfl⟩ | ⟨w, rfl⟩ <;> rfl

theorem legalIn_of_isPush {i : Instr} (h : isPush i) {s : State} (ho : s.phase = .key ∨ s.phase = .msg) :
    legalIn s.phase s.dvalid i := by
  rcases h with ⟨b, rfl⟩ | ⟨w, rfl⟩ <;> exact ho

theorem acceptance_of_overlong_push {i : Instr} {s : State} (hp : s.pend = none)
    (hl : legalIn s.phase s.dvalid i) (hi : isPush i) (hlen : s.len.toNat + pushCount i > 2 ^ 29 - 1) :
    acceptance i s = some .lenovf := by
  simp [acceptance, ne_srst_of_isPush hi, (busy_eq_false_iff s).2 hp, (legalNow_iff i s).2 hl,
    (overflowsLen_iff hi s).2 hlen]

/-- Settles O23, by `acceptance_of_overlong_push`. -/
theorem overlongPushTakesLenovfTrap : Obligations.OverlongPushTakesLenovfTrap := by
  unfold Obligations.OverlongPushTakesLenovfTrap
  exact fun i s hp hl hi hlen => exec_trapped (acceptance_of_overlong_push hp hl hi hlen)

/-- A push with room is its completion. -/
theorem exec_push {i : Instr} {s : State} (hi : isPush i) (hp : s.pend = none)
    (ho : s.phase = .key ∨ s.phase = .msg) (hlen : s.len.toNat + pushCount i ≤ 2 ^ 29 - 1) :
    exec i s = .next (completion i s) := by
  have hroom : overflowsLen i s = false := by
    rw [Bool.eq_false_iff, Ne, overflowsLen_iff hi]
    omega
  exact exec_eq_completion hp ((acceptance_none_iff (ne_srst_of_isPush hi)).2
    ⟨hp, (legalNow_iff i s).2 (legalIn_of_isPush hi ho), hroom, refusesRadix_of_isPush hi s⟩)

theorem exec_pushb (b : Byte) {s : State} (hp : s.pend = none) (ho : s.phase = .key ∨ s.phase = .msg)
    (hlen : s.len.toNat + 1 ≤ 2 ^ 29 - 1) : exec (.pushb b) s = .next (absorb b s) :=
  exec_push (.inl ⟨b, rfl⟩) hp ho hlen

theorem exec_dinw (w : Word) {s : State} (hp : s.pend = none) (ho : s.phase = .key ∨ s.phase = .msg)
    (hlen : s.len.toNat + 4 ≤ 2 ^ 29 - 1) : exec (.dinw w) s = .next (absorbAll (wordBytes w) s) :=
  exec_push (.inr ⟨w, rfl⟩) hp ho hlen

/-! One byte (R144). -/

theorem blockByte_blkWith (b : Byte) (s : State) (q : Fin 64) : blockByte (s.blkWith b) q =
    if q.val = s.len.toNat % 64 then blockByte s.blk q ||| b else blockByte s.blk q :=
  blockByte_orByte_position rfl s.blk b q

/-- Inside a block `absorb` places the byte and does not compress. -/
theorem absorb_inside {s : State} (hlt : s.len.toNat + 1 < 2 ^ 32) (h : s.len.toNat % 64 ≠ 63) (b : Byte) :
    (absorb b s).blk = s.blkWith b ∧ (absorb b s).h = s.h := by
  have hf : ¬ s.fillsBlock = true := mt (fillsBlock_iff hlt).1 h
  exact ⟨if_neg hf, if_neg hf⟩

/-- The last byte of a block compresses it. -/
theorem absorb_last {s : State} (hlt : s.len.toNat + 1 < 2 ^ 32) (h : s.len.toNat % 64 = 63) (b : Byte) :
    (absorb b s).blk = Vector.replicate 16 0 ∧ (absorb b s).h = compress s.h (s.blkWith b) := by
  have hf := (fillsBlock_iff hlt).2 h
  exact ⟨(if_pos hf).trans zeroBlock_eq_replicate, if_pos hf⟩

theorem keepKeyByte_kept {s : State} (h : s.phase = .key ∧ s.len.toNat < 64) (b : Byte) (q : Fin 64) :
    blockByte (keepKeyByte b s) q =
      if q.val = s.len.toNat then blockByte s.key q ||| b else blockByte s.key q := by
  rw [keepKeyByte, if_pos h]
  exact blockByte_orByte_position (Nat.mod_eq_of_lt h.2) s.key b q

theorem keepKeyByte_not_kept {s : State} (h : ¬ (s.phase = .key ∧ s.len.toNat < 64)) (b : Byte) :
    keepKeyByte b s = s.key := if_neg h

/-- Settles O30: PUSHB is `absorb`, whose effect on the block and on the key block is known byte by byte. -/
theorem pushbAbsorbsOneByte : Obligations.PushbAbsorbsOneByte := by
  unfold Obligations.PushbAbsorbsOneByte
  intro b s hp ho hlen
  have hlt : s.len.toNat + 1 < 2 ^ 32 := by omega
  exact ⟨absorb b s, s.blkWith b, exec_pushb b hp ho hlen, rfl, blockByte_blkWith b s,
    fun h => absorb_inside hlt h b, fun h => absorb_last hlt h b, fun h => keepKeyByte_kept h b,
    fun h => keepKeyByte_not_kept h b⟩

/-! Several bytes (R144, R146). -/

theorem absorbAll_len (bs : List Byte) (s : State) :
    (absorbAll bs s).len = s.len + BitVec.ofNat 32 bs.length := by
  induction bs generalizing s with
  | nil => simp [absorbAll_nil]
  | cons b bs ih =>
    have hcount : BitVec.ofNat 32 (bs.length + 1) = 1 + BitVec.ofNat 32 bs.length := by
      rw [Nat.add_comm, BitVec.ofNat_add]
      rfl
    rw [absorbAll_cons, ih, absorb_len, List.length_cons, hcount, BitVec.add_assoc]

theorem absorbAll_len_toNat {bs : List Byte} {s : State} (h : s.len.toNat + bs.length < 2 ^ 32) :
    (absorbAll bs s).len.toNat = s.len.toNat + bs.length := by
  rw [absorbAll_len, BitVec.toNat_add, BitVec.toNat_ofNat]
  omega

/-- Absorbing changes only H, BLK, KEY and LEN. -/
theorem absorbAll_frame (bs : List Byte) (s : State) : absorbAll bs s =
    { s with h := (absorbAll bs s).h, blk := (absorbAll bs s).blk, key := (absorbAll bs s).key
             len := s.len + BitVec.ofNat 32 bs.length } := by
  rw [← absorbAll_len]
  induction bs generalizing s with
  | nil => rfl
  | cons b bs ih => exact ih (absorb b s)

/-- Pushing bytes one by one absorbs them in order. -/
theorem execAll_pushb (bs : List Byte) {s : State} (hp : s.pend = none) (ho : s.phase = .key ∨ s.phase = .msg)
    (hlen : s.len.toNat + bs.length ≤ 2 ^ 29 - 1) :
    execAll (bs.map Instr.pushb) s = .next (absorbAll bs s) := by
  induction bs generalizing s with
  | nil => rfl
  | cons b bs ih =>
    rw [List.length_cons] at hlen
    have hnext : (absorb b s).len.toNat + bs.length ≤ 2 ^ 29 - 1 := by
      rw [absorb_len, len_succ_toNat (by omega)]
      omega
    rw [List.map_cons, execAll, exec_pushb b hp ho (by omega)]
    exact ih hp ho hnext

/-- Settles O31: both sides absorb the four bytes in lane order. -/
theorem dinwEqualsFourPushes : Obligations.DinwEqualsFourPushes := by
  unfold Obligations.DinwEqualsFourPushes
  intro w s hp ho hlen
  exact ⟨absorbAll (wordBytes w) s, exec_dinw w hp ho hlen, execAll_pushb (wordBytes w) hp ho hlen,
    absorbAll_frame (wordBytes w) s⟩

/-! A word at a word boundary (R73, R146). -/

/-- R46 (vi): the block is zero from the fill position on. -/
def State.tailZero (s : State) : Prop := ∀ p : Fin 64, s.len.toNat % 64 ≤ p.val → blockByte s.blk p = 0

/-- While the block is not completed, the bytes absorbed stand in it from the fill position on. -/
theorem absorbAll_inside {bs : List Byte} {s : State} (hlt : s.len.toNat + bs.length < 2 ^ 32)
    (hfit : s.len.toNat % 64 + bs.length < 64) (hz : s.tailZero) :
    (absorbAll bs s).h = s.h ∧ ∀ q : Fin 64, blockByte (absorbAll bs s).blk q =
      if q.val < s.len.toNat % 64 then blockByte s.blk q else bs.getD (q.val - s.len.toNat % 64) 0 := by
  induction bs generalizing s with
  | nil =>
    refine ⟨rfl, fun q => ?_⟩
    split
    · rfl
    · exact hz q (by omega)
  | cons b bs ih =>
    rw [List.length_cons] at hlt hfit
    have hone : s.len.toNat + 1 < 2 ^ 32 := by omega
    have hn : (absorb b s).len.toNat = s.len.toNat + 1 := len_succ_toNat hone
    obtain ⟨hblk, hh⟩ := absorb_inside hone (by omega) b
    obtain ⟨ih_h, ih_blk⟩ := ih (s := absorb b s) (by omega) (by omega) (absorb_tail_zero b s hone hz)
    refine ⟨ih_h.trans hh, fun q => ?_⟩
    have hpos : (s.len.toNat + 1) % 64 = s.len.toNat % 64 + 1 := by omega
    rw [absorbAll_cons, ih_blk q, hn, hpos, hblk, blockByte_blkWith]
    rcases Nat.lt_trichotomy q.val (s.len.toNat % 64) with hq | hq | hq
    · rw [if_pos (by omega), if_neg hq.ne, if_pos hq]
    · rw [if_pos (by omega), if_pos hq, if_neg (by omega), hz q hq.ge, hq, Nat.sub_self]
      simp
    · have hpred : q.val - s.len.toNat % 64 = q.val - (s.len.toNat % 64 + 1) + 1 := by omega
      rw [if_neg (by omega), if_neg (by omega), hpred, List.getD_cons_succ]

/-- The bytes absorbed inside a block and the next one, ORed in, fill the block from the fill position on. -/
theorem blockByte_blkWith_absorbAll {bs : List Byte} {s : State} (hlt : s.len.toNat + bs.length < 2 ^ 32)
    (hfit : s.len.toNat % 64 + bs.length < 64) (hz : s.tailZero) (b : Byte) (q : Fin 64) :
    blockByte ((absorbAll bs s).blkWith b) q =
      if q.val < s.len.toNat % 64 then blockByte s.blk q
      else (bs ++ [b]).getD (q.val - s.len.toNat % 64) 0 := by
  have hfill : (absorbAll bs s).len.toNat % 64 = s.len.toNat % 64 + bs.length := by
    rw [absorbAll_len_toNat hlt]
    omega
  rw [blockByte_blkWith, hfill, (absorbAll_inside hlt hfit hz).2 q]
  rcases Nat.lt_trichotomy q.val (s.len.toNat % 64 + bs.length) with hq | hq | hq
  · rw [if_neg hq.ne]
    split
    · rfl
    · rw [List.getD_append _ _ _ _ (by omega)]
  · simp [hq]
  · rw [if_neg hq.ne', if_neg (by omega), if_neg (by omega), List.getD_eq_default _ _ (by omega),
      List.getD_eq_default _ _ (by rw [List.length_append, List.length_singleton]; omega)]

/-- The four bytes of a word, placed from a word boundary on, are that word in its place (R73). -/
theorem blkWith_last_lane {s : State} {j : Fin 16} (hj : s.len.toNat % 64 = 4 * j.val)
    (hlt : s.len.toNat + 3 < 2 ^ 32) (hz : s.tailZero) (w : Word) :
    (absorbAll [byteOf w 0, byteOf w 1, byteOf w 2] s).blkWith (byteOf w 3) = s.blk.set j w := by
  apply block_ext_bytes
  intro q
  have hfit : s.len.toNat % 64 + 3 < 64 := by omega
  rw [blockByte_blkWith_absorbAll hlt hfit hz, blockByte_set, hj]
  show (if q.val < 4 * j.val then blockByte s.blk q else (wordBytes w).getD (q.val - 4 * j.val) 0) = _
  rcases Nat.lt_trichotomy (q.val / 4) j.val with hq | hq | hq
  · rw [if_pos (by omega), if_neg hq.ne]
  · have hlane : q.val - 4 * j.val = q.val % 4 := by omega
    rw [if_neg (by omega), if_pos hq, hlane, wordBytes_getD w (Nat.mod_lt _ (by decide))]
  · have hbeyond : 4 ≤ q.val - 4 * j.val := by omega
    rw [if_neg (by omega), if_neg hq.ne', List.getD_eq_default _ _ hbeyond, hz q (by omega)]

/-- Settles O32: the first three bytes stay inside the block, and the fourth completes the word
(`blkWith_last_lane`) and, in the sixteenth word, the block. -/
theorem alignedDinwDepositsItsWord : Obligations.AlignedDinwDepositsItsWord := by
  unfold Obligations.AlignedDinwDepositsItsWord
  intro w s t j hinv hp ho hlen hj ht
  have hz : s.tailZero := hinv.block_tail_zero ho
  have hthree : s.len.toNat + 3 < 2 ^ 32 := by omega
  have hfit : s.len.toNat % 64 + 3 < 64 := by omega
  have hword := blkWith_last_lane hj hthree hz w
  have hh := (absorbAll_inside (bs := [byteOf w 0, byteOf w 1, byteOf w 2]) hthree hfit hz).1
  have hu := absorbAll_len_toNat (bs := [byteOf w 0, byteOf w 1, byteOf w 2]) hthree
  simp only [List.length] at hu
  obtain rfl : absorb (byteOf w 3) (absorbAll [byteOf w 0, byteOf w 1, byteOf w 2] s) = t :=
    Host.Outcome.next.inj ((exec_dinw w hp ho hlen).symm.trans ht)
  generalize absorbAll [byteOf w 0, byteOf w 1, byteOf w 2] s = u at hword hh hu ⊢
  have hult : u.len.toNat + 1 < 2 ^ 32 := by omega
  rw [← hword, ← hh]
  exact ⟨fun h => absorb_inside hult (by omega) _, fun h => absorb_last hult (by omega) _⟩

end Sys2Proof.Machine
end

section
/-! SUPPORT. The MD5 core (spec 42_md5_core.md): the datapath, and HINIT, FINAL and `finish()` as single
operations. -/

namespace Sys2Proof.Machine

/-! The datapath (R161, R165, R181). -/

/-- A choice by a selector bit, as the round functions FF and GG write it. -/
theorem and_or_not_and_eq_ite (sel x y : Bool) : (sel && x || !sel && y) = if sel then x else y := by
  cases sel <;> simp

theorem roundFn_ff_bit (b c d : Word) {j : Nat} (hj : j < 32) :
    (roundFn .ff b c d).getLsbD j = if b.getLsbD j then c.getLsbD j else d.getLsbD j := by
  simp [roundFn, hj, ← and_or_not_and_eq_ite]

theorem roundFn_gg_bit (b c d : Word) {j : Nat} (hj : j < 32) :
    (roundFn .gg b c d).getLsbD j = if d.getLsbD j then b.getLsbD j else c.getLsbD j := by
  simp [roundFn, hj, ← and_or_not_and_eq_ite, Bool.and_comm]

/-- Settles O41: FF and GG are choices by a bit, and HH and II are their formulas on every bit. -/
theorem roundFunctionsBitByBit : Obligations.RoundFunctionsBitByBit := by
  unfold Obligations.RoundFunctionsBitByBit
  intro b c d j hj
  refine ⟨roundFn_ff_bit b c d hj, roundFn_gg_bit b c d hj, ?hh, ?ii⟩
  case hh => simp [roundFn]
  case ii => simp [roundFn, hj]

/-- Settles O42, row by row of the table. -/
theorem stepTableFollowsTheSchedule : Obligations.StepTableFollowsTheSchedule := by
  unfold Obligations.StepTableFollowsTheSchedule
  decide

/-- Settles O40: both messages are in R175's domain, and the padded digest is computed. -/
theorem statedDigestsComeOut : Obligations.StatedDigestsComeOut := by
  unfold Obligations.StatedDigestsComeOut
  rw [md5_of_le (by decide), md5_of_le (by decide)]
  decide +kernel

/-! HINIT and FINAL (R176, R178). -/

/-- An instruction whose tests all pass is its completion. -/
theorem exec_of_tests {i : Instr} {s : State} (hi : i ≠ .srst) (hp : s.pend = none)
    (hl : legalNow i s = true) (ho : overflowsLen i s = false) (hr : refusesRadix i s = false) :
    exec i s = .next (completion i s) :=
  exec_eq_completion hp ((acceptance_none_iff hi).2 ⟨hp, hl, ho, hr⟩)

theorem exec_hinit {s : State} (hp : s.pend = none) (hf : s.phase ≠ .fault) :
    exec .hinit s = .next (openContext .plain .msg s) :=
  exec_of_tests nofun hp (bne_iff_ne.2 hf) rfl rfl

theorem exec_final {s : State} (hp : s.pend = none) (hm : s.phase = .msg) :
    exec .final s = .next (completeFinal s) :=
  exec_of_tests nofun hp (beq_iff_eq.2 hm) rfl rfl

/-- Settles O28, by `exec_hinit`. -/
theorem hinitOpensPlainContext : Obligations.HinitOpensPlainContext := by
  unfold Obligations.HinitOpensPlainContext
  intro s hp hf
  rw [exec_hinit hp hf, openContext, zeroBlock_eq_replicate]
  rfl

theorem finalDigest_plain {s : State} (h : s.mode = .plain) : finalDigest s = (finish s).h := by
  simp [finalDigest, h]

theorem finalDigest_hmac {s : State} (h : s.mode = .hmac) :
    finalDigest s = outerHash s.key (finish s).h := by
  simp [finalDigest, h]

/-- Settles O36, by `exec_final` and `finalDigest_plain`. -/
theorem finalFinishesPlainHash : Obligations.FinalFinishesPlainHash := by
  unfold Obligations.FinalFinishesPlainHash
  intro s hp hm hmode
  rw [exec_final hp hm, completeFinal, finalDigest_plain hmode, zeroBlock_eq_replicate]

/-- Settles O37, by `exec_final` and `finalDigest_hmac`: `outerBlock` is the written-out block of R206. -/
theorem finalRunsOuterHash : Obligations.FinalRunsOuterHash := by
  unfold Obligations.FinalRunsOuterHash
  intro s hp hm hmode
  refine ⟨(finish s).h, outerBlock (finish s).h, rfl, rfl, ?_⟩
  rw [exec_final hp hm, completeFinal, finalDigest_hmac hmode, zeroBlock_eq_replicate]
  rfl

/-! The padding action (R177). -/

/-- The block with the pad byte at the fill position (R172, R177). -/
def State.marked (s : State) : Vector Word 16 := orByte s.blk s.fill padByte

theorem finishH_one_block {s : State} (h : s.len.toNat % 64 < 56) :
    finishH s = compress s.h (withLength s.marked (bitLength s)) :=
  if_neg (Nat.not_le.2 h)

theorem finishH_two_blocks {s : State} (h : 56 ≤ s.len.toNat % 64) :
    finishH s = compress (compress s.h s.marked) (withLength zeroBlock (bitLength s)) :=
  if_pos h

/-- Settles O35: a block marked byte by byte is `State.marked`, and the fill position decides between
`finishH_one_block` and `finishH_two_blocks`. -/
theorem finishPadsOneOrTwoBlocks : Obligations.FinishPadsOneOrTwoBlocks := by
  unfold Obligations.FinishPadsOneOrTwoBlocks
  intro s marked p hp hmarked
  have hfill : s.fill = p := Fin.ext hp.symm
  obtain rfl : s.marked = marked := block_ext_bytes fun q => by
    rw [hmarked, State.marked, blockByte_orByte, hfill]
    split
    · next h => rw [h]; rfl
    · rfl
  rw [← zeroBlock_eq_replicate]
  constructor
  · intro h
    rw [finish, finishH_one_block (by omega)]
    rfl
  · intro h
    rw [finish, finishH_two_blocks (by omega)]
    rfl

end Sys2Proof.Machine
end

section
/-! SUPPORT. Streaming (spec 42_md5_core.md R175 to R180): `finish()` absorbs the standard padding of the bytes
absorbed before it, so a finished context has compressed exactly the padded message of R175. -/

namespace Sys2Proof.Machine

open Sys2Proof.Claims

/-! Packed words byte by byte (R140, R142). -/

theorem wordsToBytes_length (ws : List Word) : (wordsToBytes ws).length = 4 * ws.length := by
  induction ws with
  | nil => rfl
  | cons w ws ih =>
    have hw : (wordBytes w).length = 4 := rfl
    rw [wordsToBytes_cons, List.length_append, ih, hw, List.length_cons, Nat.mul_succ, Nat.add_comm]

theorem wordsToBytes_getD (ws : List Word) (i : Nat) {j : Nat} (hj : j < 4) :
    (wordsToBytes ws).getD (4 * i + j) 0 = byteOf (ws.getD i 0) j := by
  induction ws generalizing i with
  | nil => exact (byteOf_zero j).symm
  | cons w ws ih =>
    rw [wordsToBytes_cons]
    cases i with
    | zero =>
      rw [Nat.mul_zero, Nat.zero_add, List.getD_append _ _ _ _ hj, wordBytes_getD w hj, List.getD_cons_zero]
    | succ i =>
      have hlane : 4 * (i + 1) + j - 4 = 4 * i + j := by omega
      rw [List.getD_append_right _ _ _ _ (show 4 ≤ _ by omega), List.getD_cons_succ, ← ih i, ← hlane]
      rfl

theorem bytesToWords_length (m : List Byte) : (bytesToWords m).length = (m.length + 3) / 4 := by
  have h := congrArg List.length (wordsToBytes_bytesToWords m)
  rw [wordsToBytes_length, List.length_append, List.length_replicate] at h
  omega

/-- Byte `j` of word `i` is byte `4i + j` of what was packed. -/
theorem bytesToWords_getD (m : List Byte) (i : Nat) {j : Nat} (hj : j < 4) :
    byteOf ((bytesToWords m).getD i 0) j = m.getD (4 * i + j) 0 := by
  rw [← wordsToBytes_getD _ i hj, wordsToBytes_bytesToWords]
  simp only [List.getD_eq_getElem?_getD, List.getElem?_append, List.getElem?_replicate]
  grind

/-- Lists of words are equal when their lengths and all their bytes are. -/
theorem words_ext_bytes {vs ws : List Word} (hlen : vs.length = ws.length)
    (h : ∀ i j, i < vs.length → j < 4 → byteOf (vs.getD i 0) j = byteOf (ws.getD i 0) j) : vs = ws := by
  apply List.ext_getElem hlen
  intro i hv hw
  rw [← List.getD_eq_getElem vs 0 hv, ← List.getD_eq_getElem ws 0 hw]
  exact word_ext_bytes fun j hj => h i j hv hj

theorem getD_take_eq {α : Type} {l : List α} {k i : Nat} (h : i < k) (x : α) :
    (l.take k).getD i x = l.getD i x := by
  rw [List.getD_eq_getElem?_getD, List.getD_eq_getElem?_getD, List.getElem?_take_of_lt h]

theorem getD_drop_eq {α : Type} (l : List α) (k i : Nat) (x : α) :
    (l.drop k).getD i x = l.getD (k + i) x := by
  simp [List.getD_eq_getElem?_getD]

theorem bytesToWords_drop (m : List Byte) (k : Nat) :
    bytesToWords (m.drop (4 * k)) = (bytesToWords m).drop k := by
  apply words_ext_bytes
  · rw [List.length_drop, bytesToWords_length, bytesToWords_length, List.length_drop]
    omega
  · intro i j _ hj
    rw [bytesToWords_getD _ i hj, getD_drop_eq, getD_drop_eq, bytesToWords_getD _ _ hj, Nat.mul_add,
      Nat.add_assoc]

/-- Byte `q` of the first block of a message is its byte `q`, and 0 beyond its end. -/
theorem blockByte_firstBlock (m : List Byte) (q : Fin 64) :
    blockByte (blockOfList ((bytesToWords m).take 16)) q = m.getD q.val 0 := by
  rw [blockByte, blockOfList, tabulate_get]
  show byteOf (((bytesToWords m).take 16).getD (q.val / 4) 0) (q.val % 4) = _
  rw [getD_take_eq (by omega), bytesToWords_getD _ _ (Nat.mod_lt _ (by decide)), Nat.div_add_mod]

/-! Absorbing whole blocks (R144). -/

theorem absorbAll_tailZero {bs : List Byte} {s : State} (hlt : s.len.toNat + bs.length < 2 ^ 32)
    (hz : s.tailZero) : (absorbAll bs s).tailZero := by
  induction bs generalizing s with
  | nil => exact hz
  | cons b bs ih =>
    rw [List.length_cons] at hlt
    have hone : s.len.toNat + 1 < 2 ^ 32 := by omega
    exact ih (by rw [absorb_len, len_succ_toNat hone]; omega) (absorb_tail_zero b s hone hz)

theorem tailZero_of_blk {s : State} (h : s.blk = zeroBlock) : s.tailZero := fun p _ => by
  rw [h, blockByte_zeroBlock]

/-- Bytes that end with the block compress it once: what stood in it, and the bytes from the fill position
on. -/
theorem absorbAll_completes {bs : List Byte} {s : State} (hlt : s.len.toNat + bs.length < 2 ^ 32)
    (hfit : s.len.toNat % 64 + bs.length = 64) (hz : s.tailZero) {block : Vector Word 16}
    (hblock : ∀ q : Fin 64, blockByte block q =
      if q.val < s.len.toNat % 64 then blockByte s.blk q else bs.getD (q.val - s.len.toNat % 64) 0) :
    (absorbAll bs s).blk = zeroBlock ∧ (absorbAll bs s).h = compress s.h block := by
  rcases List.eq_nil_or_concat' bs with rfl | ⟨front, b, rfl⟩
  · rw [List.length_nil] at hfit
    omega
  rw [List.length_append, List.length_singleton] at hlt hfit
  have hlen := absorbAll_len_toNat (bs := front) (s := s) (by omega)
  have hfilled : (absorbAll front s).blkWith b = block := block_ext_bytes fun q => by
    rw [hblock, blockByte_blkWith_absorbAll (by omega) (by omega) hz]
  have hh := (absorbAll_inside (bs := front) (by omega) (by omega) hz).1
  rw [absorbAll_append, absorbAll_cons, absorbAll_nil, ← hfilled, ← hh, zeroBlock_eq_replicate]
  exact absorb_last (by omega) (by omega) b

theorem compressWords_succ (k : Nat) (ws : List Word) (h : Quad) : compressWords (k + 1) ws h =
    compressWords k (ws.drop 16) (compress h (blockOfList (ws.take 16))) := by
  rw [compressWords.eq_def]

/-- From a block boundary on, `k` blocks of bytes are the `k` compressions of R175's loop. -/
theorem absorbAll_wholeBlocks {k : Nat} {bs : List Byte} {s : State} (hbs : bs.length = 64 * k)
    (hlt : s.len.toNat + bs.length < 2 ^ 32) (hfill : s.len.toNat % 64 = 0) (hblk : s.blk = zeroBlock) :
    (absorbAll bs s).h = compressWords k (bytesToWords bs) s.h := by
  induction k generalizing bs s with
  | zero =>
    obtain rfl := List.length_eq_zero_iff.1 hbs
    rfl
  | succ k ih =>
    have htake : (bs.take 64).length = 64 := by rw [List.length_take]; omega
    have hdrop : (bs.drop 64).length = 64 * k := by rw [List.length_drop]; omega
    have hmid := absorbAll_len_toNat (bs := bs.take 64) (s := s) (by omega)
    obtain ⟨hblk', hh'⟩ := absorbAll_completes (bs := bs.take 64) (s := s) (by omega) (by omega)
      (tailZero_of_blk hblk) (block := blockOfList ((bytesToWords bs).take 16)) fun q => by
        rw [blockByte_firstBlock, hfill, if_neg (Nat.not_lt_zero _), Nat.sub_zero, getD_take_eq q.isLt]
    rw [← List.take_append_drop 64 bs, absorbAll_append, ih hdrop (by omega) (by omega) hblk',
      List.take_append_drop, compressWords_succ, hh', ← bytesToWords_drop bs 16]

/-! The padding of a message (R172 to R175). -/

/-- The bit length of a message of `n` bytes as eight bytes, the high word 0 (R174). -/
def lengthBytes (n : Nat) : List Byte := wordsToBytes [BitVec.ofNat 32 (8 * n), 0]

theorem lengthBytes_getD (n i : Nat) {j : Nat} (hj : j < 4) :
    (lengthBytes n).getD (4 * i + j) 0 = byteOf ([BitVec.ofNat 32 (8 * n), 0].getD i 0) j :=
  wordsToBytes_getD _ i hj

/-- How many zero bytes follow the pad byte of a message of `n` bytes (R173). -/
def zeroCount (n : Nat) : Nat := (119 - n % 64) % 64

/-- The padding of a message of `n` bytes as bytes: the pad byte, the zeros, the length. -/
def padding (n : Nat) : List Byte := padByte :: (List.replicate (zeroCount n) 0 ++ lengthBytes n)

theorem padding_length (n : Nat) : (padding n).length = zeroCount n + 9 := by
  simp [padding, lengthBytes, wordsToBytes_length]

/-- The number of blocks of a padded message of `n` bytes (R175). -/
def blockCount (n : Nat) : Nat := (n + 8) / 64 + 1

/-- With its padding a message fills its blocks. -/
theorem zeroCount_add (n : Nat) : n + zeroCount n + 9 = 64 * blockCount n := by
  unfold zeroCount blockCount
  omega

theorem padding_getD (n e : Nat) : (padding n).getD e 0 =
    if e = 0 then padByte else if e ≤ zeroCount n then 0
    else (lengthBytes n).getD (e - (zeroCount n + 1)) 0 := by
  cases e with
  | zero => rfl
  | succ e =>
    rw [padding, List.getD_cons_succ, if_neg (Nat.succ_ne_zero e), Nat.add_sub_add_right]
    by_cases he : e < zeroCount n
    · rw [if_pos (by omega), List.getD_append _ _ _ _ (by rwa [List.length_replicate])]
      simp [List.getD_eq_getElem?_getD, he]
    · rw [if_neg (by omega), List.getD_append_right _ _ _ _ (by rw [List.length_replicate]; omega),
        List.length_replicate]

/-! `finish()` absorbs the padding (R177). -/

/-- The length words take the place of the last eight bytes of a block. -/
theorem blockByte_withLength (blk : Vector Word 16) (n : Nat) (q : Fin 64) :
    blockByte (withLength blk (BitVec.ofNat 32 (8 * n))) q =
      if q.val < 56 then blockByte blk q else (lengthBytes n).getD (q.val - 56) 0 := by
  have hset : blockByte (withLength blk (BitVec.ofNat 32 (8 * n))) q =
      if q.val / 4 = 15 then byteOf 0 (q.val % 4)
      else if q.val / 4 = 14 then byteOf (BitVec.ofNat 32 (8 * n)) (q.val % 4) else blockByte blk q :=
    (blockByte_set _ 15 0 q).trans (if_congr Iff.rfl rfl (blockByte_set blk 14 _ q))
  rw [hset]
  rcases Nat.lt_or_ge q.val 56 with hlow | hhigh
  · rw [if_neg (by omega), if_neg (by omega), if_pos hlow]
  · have hlane : q.val - 56 = 4 * (q.val / 4 - 14) + q.val % 4 := by omega
    rw [if_neg hhigh.not_gt, hlane, lengthBytes_getD _ _ (Nat.mod_lt _ (by decide))]
    have hword : q.val / 4 = 14 ∨ q.val / 4 = 15 := by omega
    rcases hword with h | h <;> simp [h]

/-- The marked block is what stood in the block, the pad byte, and zeros. -/
theorem blockByte_marked {s : State} (hz : s.tailZero) (q : Fin 64) : blockByte s.marked q =
    if q.val < s.len.toNat % 64 then blockByte s.blk q
    else if q.val = s.len.toNat % 64 then padByte else 0 := by
  have hmarked : blockByte s.marked q =
      if q.val = s.len.toNat % 64 then blockByte s.blk q ||| padByte else blockByte s.blk q :=
    blockByte_orByte_position rfl s.blk padByte q
  rw [hmarked]
  rcases Nat.lt_trichotomy q.val (s.len.toNat % 64) with hq | hq | hq
  · rw [if_neg hq.ne, if_pos hq]
  · rw [if_pos hq, if_neg hq.not_lt, if_pos hq, hz q hq.ge]
    exact BitVec.zero_or
  · rw [if_neg hq.ne', if_neg hq.not_gt, if_neg hq.ne', hz q hq.le]

/-- The pad byte leaves room for the length: the padding fills up the block. -/
theorem finishH_one_block_eq_absorbAll {s : State} (hlt : s.len.toNat + 72 < 2 ^ 32) (hz : s.tailZero)
    (hroom : s.len.toNat % 64 < 56) : finishH s = (absorbAll (padding s.len.toNat) s).h := by
  have hlen := padding_length s.len.toNat
  have hzeros : zeroCount s.len.toNat = 55 - s.len.toNat % 64 := by unfold zeroCount; omega
  rw [finishH_one_block hroom]
  refine (absorbAll_completes (by omega) (by omega) hz fun q => ?_).2.symm
  rw [bitLength, blockByte_withLength, blockByte_marked hz, padding_getD, hzeros]
  grind

/-- It leaves none: the padding fills up the block and a second one. -/
theorem finishH_two_blocks_eq_absorbAll {s : State} (hlt : s.len.toNat + 72 < 2 ^ 32) (hz : s.tailZero)
    (hroom : 56 ≤ s.len.toNat % 64) : finishH s = (absorbAll (padding s.len.toNat) s).h := by
  have hlen := padding_length s.len.toNat
  have hzeros : zeroCount s.len.toNat = 119 - s.len.toNat % 64 := by unfold zeroCount; omega
  generalize hfront : (padding s.len.toNat).take (64 - s.len.toNat % 64) = front
  generalize hback : (padding s.len.toNat).drop (64 - s.len.toNat % 64) = back
  have hfrontLen : front.length = 64 - s.len.toNat % 64 := by rw [← hfront, List.length_take]; omega
  have hbackLen : back.length = 64 := by rw [← hback, List.length_drop]; omega
  obtain ⟨hblk, hh⟩ := absorbAll_completes (bs := front) (s := s) (block := s.marked) (by omega)
    (by omega) hz fun q => by
      rw [blockByte_marked hz, ← hfront, getD_take_eq (by omega), padding_getD, hzeros]
      grind
  have hmid := absorbAll_len_toNat (bs := front) (s := s) (by omega)
  have hmidFill : (absorbAll front s).len.toNat % 64 = 0 := by omega
  rw [finishH_two_blocks hroom, ← List.take_append_drop (64 - s.len.toNat % 64) (padding _), hfront, hback,
    absorbAll_append, ← hh]
  refine (absorbAll_completes (by omega) (by omega) (tailZero_of_blk hblk) fun q => ?_).2.symm
  rw [bitLength, blockByte_withLength, blockByte_zeroBlock, hmidFill, ← hback, getD_drop_eq, padding_getD,
    hzeros]
  grind

/-- `finish()` leaves in `H` what absorbing the padding of the context's bytes would. -/
theorem finishH_eq_absorbAll_padding {s : State} (hlt : s.len.toNat + 72 < 2 ^ 32) (hz : s.tailZero) :
    finishH s = (absorbAll (padding s.len.toNat) s).h := by
  rcases Nat.lt_or_ge (s.len.toNat % 64) 56 with hroom | hroom
  · exact finishH_one_block_eq_absorbAll hlt hz hroom
  · exact finishH_two_blocks_eq_absorbAll hlt hz hroom

/-- A context filled from a block boundary on and finished has compressed its bytes and their padding, the
bytes before that boundary counted in the length. -/
theorem finishH_absorbAll {m : List Byte} {s : State} {k : Nat} (hlt : s.len.toNat + m.length + 72 < 2 ^ 32)
    (hfill : s.len.toNat % 64 = 0) (hblk : s.blk = zeroBlock)
    (hk : (m ++ padding (s.len.toNat + m.length)).length = 64 * k) :
    finishH (absorbAll m s) =
      compressWords k (bytesToWords (m ++ padding (s.len.toNat + m.length))) s.h := by
  have hlen : (absorbAll m s).len.toNat = s.len.toNat + m.length := absorbAll_len_toNat (by omega)
  have hz := absorbAll_tailZero (bs := m) (s := s) (by omega) (tailZero_of_blk hblk)
  have hpad : (padding (s.len.toNat + m.length)).length ≤ 72 := by
    rw [padding_length, zeroCount]
    omega
  rw [finishH_eq_absorbAll_padding (by omega) hz, hlen, ← absorbAll_append]
  refine absorbAll_wholeBlocks hk ?_ hfill hblk
  rw [List.length_append]
  omega

/-! The padded message of R175. -/

theorem paddedWords_length (m : List Byte) : (paddedWords m).length = 16 * blockCount m.length := by
  have hw := bytesToWords_length m
  simp only [paddedWords, List.length_modify, List.length_append, List.length_replicate, blockCount]
  omega

/-- The words of the padded message one by one (R175). -/
theorem paddedWords_getD (m : List Byte) {i : Nat} (hi : i < 16 * blockCount m.length) :
    (paddedWords m).getD i 0 =
      if i = 16 * blockCount m.length - 2 then BitVec.ofNat 32 (8 * m.length)
      else if i = m.length / 4 then (bytesToWords m).getD i 0 ||| byteAt padByte (m.length % 4)
      else (bytesToWords m).getD i 0 := by
  have hw := bytesToWords_length m
  have hlast : 16 * ((8 * m.length + 64) / 512) + 16 = 16 * blockCount m.length := by
    unfold blockCount
    omega
  simp only [paddedWords, List.getD_eq_getElem?_getD, List.getElem?_modify, List.getElem?_append,
    List.getElem?_replicate]
  grind

/-- The bytes of the padded message one by one. -/
theorem padded_getD (m : List Byte) (k : Nat) : (m ++ padding m.length).getD k 0 =
    if k < m.length then m.getD k 0
    else if k = m.length then padByte
    else if k < 64 * blockCount m.length - 8 then 0
    else (lengthBytes m.length).getD (k - (64 * blockCount m.length - 8)) 0 := by
  have hcount := zeroCount_add m.length
  rcases Nat.lt_or_ge k m.length with hk | hk
  · rw [if_pos hk, List.getD_append _ _ _ _ hk]
  · rw [if_neg hk.not_gt, List.getD_append_right _ _ _ _ hk, padding_getD]
    grind

/-- The word with the pad byte ends the message (R172). -/
theorem byteOf_markedWord (m : List Byte) {j : Nat} (hj : j < 4) :
    byteOf ((bytesToWords m).getD (m.length / 4) 0 ||| byteAt padByte (m.length % 4)) j =
      if 4 * (m.length / 4) + j < m.length then m.getD (4 * (m.length / 4) + j) 0
      else if 4 * (m.length / 4) + j = m.length then padByte else 0 := by
  have hbeyond : m.length ≤ 4 * (m.length / 4) + j → m.getD (4 * (m.length / 4) + j) 0 = 0 :=
    List.getD_eq_default _ _
  rw [byteOf_or, byteOf_byteAt _ hj, bytesToWords_getD _ _ hj]
  rcases Nat.lt_trichotomy (4 * (m.length / 4) + j) m.length with hk | hk | hk
  · rw [if_pos hk, if_neg (by omega)]
    exact BitVec.or_zero
  · rw [if_neg hk.not_lt, if_pos hk, if_pos (by omega), hbeyond hk.ge]
    exact BitVec.zero_or
  · rw [if_neg hk.not_gt, if_neg hk.ne', if_neg (by omega), hbeyond hk.le]
    exact BitVec.or_zero

/-- R175's word sequence is the message with its padding, packed. -/
theorem paddedWords_eq (m : List Byte) : paddedWords m = bytesToWords (m ++ padding m.length) := by
  have hcount := zeroCount_add m.length
  have hroom : m.length / 4 < 16 * blockCount m.length - 2 := by unfold zeroCount at hcount; omega
  apply words_ext_bytes
  · rw [paddedWords_length, bytesToWords_length, List.length_append, padding_length]
    omega
  intro i j hi hj
  rw [paddedWords_length] at hi
  have hbyte := bytesToWords_getD m i hj
  have hbeyond : m.length ≤ 4 * i + j → m.getD (4 * i + j) 0 = 0 := List.getD_eq_default _ _
  rw [paddedWords_getD m hi, bytesToWords_getD _ i hj, padded_getD]
  have hcases : i < 16 * blockCount m.length - 2 ∨ i = 16 * blockCount m.length - 2 ∨
    i = 16 * blockCount m.length - 1 := by omega
  rcases hcases with h | h | h
  · rw [if_neg h.ne, if_pos (show 4 * i + j < 64 * blockCount m.length - 8 by omega)]
    by_cases hmark : i = m.length / 4
    · rw [if_pos hmark, hmark, byteOf_markedWord m hj]
    · rw [if_neg hmark, hbyte]
      grind
  · have hlane : 4 * i + j - (64 * blockCount m.length - 8) = 4 * 0 + j := by omega
    rw [if_pos h, if_neg (by omega), if_neg (by omega), if_neg (by omega), hlane, lengthBytes_getD _ _ hj,
      List.getD_cons_zero]
  · have hlane : 4 * i + j - (64 * blockCount m.length - 8) = 4 * 1 + j := by omega
    rw [if_neg (by omega), if_neg (by omega), if_neg (by omega), if_neg (by omega), if_neg (by omega), hlane,
      lengthBytes_getD _ _ hj, hbyte, hbeyond (by omega)]
    exact (byteOf_zero j).symm

/-- Within R175's domain md5 compresses the packed bytes of the message and its padding. -/
theorem md5_eq_compressWords {m : List Byte} (h : m.length ≤ Config.lenMax) :
    md5 m = compressWords (blockCount m.length) (bytesToWords (m ++ padding m.length)) iv := by
  rw [md5_of_le h, paddedDigest, paddedWords_length, paddedWords_eq, Nat.mul_div_cancel_left _ (by decide)]

/-! A program of pushes (R180). -/

@[simp] theorem absorbAll_phase (bs : List Byte) (s : State) : (absorbAll bs s).phase = s.phase := by
  rw [absorbAll_frame]

@[simp] theorem absorbAll_mode (bs : List Byte) (s : State) : (absorbAll bs s).mode = s.mode := by
  rw [absorbAll_frame]

@[simp] theorem absorbAll_pend (bs : List Byte) (s : State) : (absorbAll bs s).pend = s.pend := by
  rw [absorbAll_frame]

theorem execAll_cons {i : Instr} {s t : State} (h : exec i s = .next t) (is : List Instr) :
    execAll (i :: is) s = execAll is t := by
  rw [execAll, h]

theorem execAll_append {is : List Instr} {s t : State} (h : execAll is s = .next t) (js : List Instr) :
    execAll (is ++ js) s = execAll js t := by
  induction is generalizing s with
  | nil =>
    cases h
    rfl
  | cons i is ih =>
    obtain ⟨u, hu, ht⟩ := execAll_cons_next h
    rw [List.cons_append, execAll_cons hu, ih ht]

/-- The completion of a push absorbs its bytes in order (R145, R146). -/
theorem completion_of_isPush {i : Instr} (h : isPush i) (s : State) :
    completion i s = absorbAll (pushedBytes i) s := by
  rcases h with ⟨b, rfl⟩ | ⟨w, rfl⟩ <;> rfl

theorem pushedBytes_length {i : Instr} (h : isPush i) : (pushedBytes i).length = pushCount i := by
  rcases h with ⟨b, rfl⟩ | ⟨w, rfl⟩ <;> rfl

/-- Pushes with room for all of their bytes absorb them in order. -/
theorem execAll_pushes {is : List Instr} {s : State} (his : ∀ i ∈ is, isPush i) (hp : s.pend = none)
    (ho : s.phase = .key ∨ s.phase = .msg)
    (hlen : s.len.toNat + (is.flatMap pushedBytes).length ≤ 2 ^ 29 - 1) :
    execAll is s = .next (absorbAll (is.flatMap pushedBytes) s) := by
  induction is generalizing s with
  | nil => rfl
  | cons i is ih =>
    obtain ⟨hi, his⟩ := List.forall_mem_cons.1 his
    rw [List.flatMap_cons, List.length_append] at hlen
    have hcount := pushedBytes_length hi
    have hnext := absorbAll_len_toNat (bs := pushedBytes i) (s := s) (by omega)
    rw [execAll_cons (exec_push hi hp ho (by omega)), completion_of_isPush hi, List.flatMap_cons,
      absorbAll_append]
    exact ih his (by rwa [absorbAll_pend]) (by rwa [absorbAll_phase]) (by omega)

/-- A fresh context that absorbs a message and is finished holds its digest (R180). -/
theorem finishH_openContext {m : List Byte} (hm : m.length ≤ Config.lenMax) (mode : Mode) (phase : Phase)
    (s : State) : finishH (absorbAll m (openContext mode phase s)) = md5 m := by
  have hzero : (openContext mode phase s).len.toNat + m.length = m.length := Nat.zero_add _
  have hk : (m ++ padding m.length).length = 64 * blockCount m.length := by
    rw [List.length_append, padding_length, ← zeroCount_add, Nat.add_assoc]
  have hlt : m.length + 72 < 2 ^ 32 := Nat.lt_of_le_of_lt (Nat.add_le_add_right hm 72) (by decide)
  have h := finishH_absorbAll (m := m) (s := openContext mode phase s) (k := blockCount m.length)
    (by rwa [hzero]) rfl rfl (by rwa [hzero])
  rw [h, hzero, md5_eq_compressWords hm, openContext_h]

/-- Settles O38: HINIT opens a fresh context (`exec_hinit`), the pushes absorb their bytes in order
(`execAll_pushes`), and FINAL leaves the digest of those bytes (`finishH_openContext`). -/
theorem streamedMessageHashesToMd5 : Obligations.StreamedMessageHashesToMd5 := by
  unfold Obligations.StreamedMessageHashesToMd5
  intro is s hp hf his hlen
  generalize hm : is.flatMap pushedBytes = m at hlen
  have hfresh : (openContext .plain .msg s).len.toNat + m.length = m.length := Nat.zero_add _
  have hbytes := execAll_pushes (s := openContext .plain .msg s) his hp (.inr rfl)
    (by rwa [hm, hfresh])
  rw [hm] at hbytes
  refine ⟨completeFinal (absorbAll m (openContext .plain .msg s)), ?_, ?_, rfl, absorbAll_mode m _, rfl, ?_⟩
  · rw [List.cons_append, execAll_cons (exec_hinit hp hf), execAll_append hbytes,
      execAll_cons (exec_final (by rwa [absorbAll_pend]) (absorbAll_phase m _)), execAll]
  · rw [completeFinal_h, finalDigest_plain (absorbAll_mode m _), finish_h, finishH_openContext hlen]
  · rw [completeFinal_len, absorbAll_len_toNat (by omega), hfresh]

end Sys2Proof.Machine
end

section
/-! SUPPORT. HMAC (spec 43_hmac.md): KINIT and KDONE as single operations, what loading a key leaves in `KEY`,
and the two nested hashes of R200, each of them a key block and what is absorbed after it. -/

namespace Sys2Proof.Machine

open Sys2Proof.Claims

/-! KINIT and KDONE (R202, R204). -/

theorem exec_kinit {s : State} (hp : s.pend = none) (hf : s.phase ≠ .fault) :
    exec .kinit s = .next (openContext .hmac .key s) :=
  exec_of_tests nofun hp (bne_iff_ne.2 hf) rfl rfl

theorem exec_kdone {s : State} (hp : s.pend = none) (hk : s.phase = .key) :
    exec .kdone s = .next (completeKdone s) :=
  exec_of_tests nofun hp (beq_iff_eq.2 hk) rfl rfl

/-- Settles O29, by `exec_kinit`. -/
theorem kinitOpensHmacContext : Obligations.KinitOpensHmacContext := by
  unfold Obligations.KinitOpensHmacContext
  intro s hp hf
  rw [exec_kinit hp hf, openContext, zeroBlock_eq_replicate]
  rfl

theorem normalisedKey_short {s : State} (h : s.len.toNat ≤ 64) : normalisedKey s = s.key :=
  if_neg h.not_gt

theorem normalisedKey_long {s : State} (h : 64 < s.len.toNat) :
    normalisedKey s = blockOfList (finishH s).toList :=
  if_pos h

/-- Settles O33, by `exec_kdone` and `normalisedKey_short`. -/
theorem kdoneUsesShortKeyAsItIs : Obligations.KdoneUsesShortKeyAsItIs := by
  unfold Obligations.KdoneUsesShortKeyAsItIs
  intro s hp hk hlen
  rw [exec_kdone hp hk, completeKdone, normalisedKey_short hlen, zeroBlock_eq_replicate]
  rfl

/-- Settles O34, by `exec_kdone` and `normalisedKey_long`. -/
theorem kdoneHashesLongKey : Obligations.KdoneHashesLongKey := by
  unfold Obligations.KdoneHashesLongKey
  intro s hp hk hlen
  refine ⟨(finish s).h, blockOfList (finish s).h.toList, rfl, rfl, ?_⟩
  rw [exec_kdone hp hk, completeKdone, normalisedKey_long hlen, zeroBlock_eq_replicate]
  rfl

/-! Loading the key (R144, R201). -/

/-- While a key is loaded, `KEY` is zero from the fill position on. -/
def State.keyTailZero (s : State) : Prop := ∀ q : Fin 64, s.len.toNat ≤ q.val → blockByte s.key q = 0

/-- One key byte goes to its place, and one beyond the 64th nowhere. -/
theorem blockByte_keepKeyByte {s : State} (hk : s.phase = .key) (hz : s.keyTailZero) (b : Byte)
    (q : Fin 64) : blockByte (keepKeyByte b s) q =
      if q.val = s.len.toNat then b else blockByte s.key q := by
  by_cases hroom : s.len.toNat < 64
  · rw [keepKeyByte_kept ⟨hk, hroom⟩]
    split
    · next hq => rw [hz q hq.ge]; exact BitVec.zero_or
    · rfl
  · rw [keepKeyByte_not_kept fun h => hroom h.2, if_neg (by omega)]

theorem absorb_keyTailZero {s : State} (hlt : s.len.toNat + 1 < 2 ^ 32) (hk : s.phase = .key)
    (hz : s.keyTailZero) (b : Byte) : (absorb b s).keyTailZero := by
  intro q hq
  rw [absorb_len, len_succ_toNat hlt] at hq
  rw [absorb_key, blockByte_keepKeyByte hk hz, if_neg (by omega), hz q (by omega)]

/-- `KEY` holds the bytes loaded, from the fill position on and as far as they fit. -/
theorem blockByte_key_absorbAll {bs : List Byte} {s : State} (hlt : s.len.toNat + bs.length < 2 ^ 32)
    (hk : s.phase = .key) (hz : s.keyTailZero) (q : Fin 64) : blockByte (absorbAll bs s).key q =
      if q.val < s.len.toNat then blockByte s.key q else bs.getD (q.val - s.len.toNat) 0 := by
  induction bs generalizing s with
  | nil =>
    split
    · rfl
    · next hq => exact hz q (not_lt.1 hq)
  | cons b bs ih =>
    rw [List.length_cons] at hlt
    have hone : s.len.toNat + 1 < 2 ^ 32 := by omega
    have hn : (absorb b s).len.toNat = s.len.toNat + 1 := len_succ_toNat hone
    rw [absorbAll_cons, ih (s := absorb b s) (by omega) hk (absorb_keyTailZero hone hk hz b), hn, absorb_key,
      blockByte_keepKeyByte hk hz]
    rcases Nat.lt_trichotomy q.val s.len.toNat with hq | hq | hq
    · rw [if_pos (by omega), if_neg hq.ne, if_pos hq]
    · rw [if_pos (by omega), if_pos hq, if_neg hq.not_lt, hq, Nat.sub_self, List.getD_cons_zero]
    · have hpred : q.val - s.len.toNat = q.val - (s.len.toNat + 1) + 1 := by omega
      rw [if_neg (by omega), if_neg hq.not_gt, hpred, List.getD_cons_succ]

/-- Outside phase KEY absorbing leaves `KEY` alone. -/
theorem absorbAll_key {s : State} (hk : s.phase ≠ .key) (bs : List Byte) : (absorbAll bs s).key = s.key := by
  induction bs generalizing s with
  | nil => rfl
  | cons b bs ih => exact (ih (s := absorb b s) hk).trans (keepKeyByte_not_kept (fun h => hk h.1) b)

theorem blockOfList_take (ws : List Word) : blockOfList (ws.take 16) = blockOfList ws :=
  Vector.ext fun i hi => by
    rw [blockOfList, blockOfList, tabulate_getElem, tabulate_getElem, getD_take_eq hi]

/-- A key loaded into a fresh context stands in `KEY`, cut to a block and zero-extended. -/
theorem key_absorbAll_openContext {m : List Byte} (hlt : m.length < 2 ^ 32) (mode : Mode) (s : State) :
    (absorbAll m (openContext mode .key s)).key = blockOfList (bytesToWords m) := by
  have hfresh : (openContext mode .key s).len.toNat = 0 := rfl
  rw [← blockOfList_take]
  apply block_ext_bytes
  intro q
  rw [blockByte_firstBlock, blockByte_key_absorbAll (by omega) rfl (fun p _ => blockByte_zeroBlock p), hfresh,
    if_neg (Nat.not_lt_zero _), Nat.sub_zero]

theorem keyBlock_short {m : List Byte} (h : m.length ≤ 64) : keyBlock m = blockOfList (bytesToWords m) :=
  if_neg (by rw [bytesToWords_length]; omega)

theorem keyBlock_long {m : List Byte} (h : 64 < m.length) : keyBlock m = blockOfList (md5 m).toList :=
  if_pos (by rw [bytesToWords_length]; omega)

/-- KDONE finds the key block of the bytes loaded (R200, R204). -/
theorem normalisedKey_openContext {m : List Byte} (hm : m.length ≤ Config.lenMax) (mode : Mode) (s : State) :
    normalisedKey (absorbAll m (openContext mode .key s)) = keyBlock m := by
  have hlt : m.length < 2 ^ 32 := Nat.lt_of_le_of_lt hm (by decide)
  have hfresh : (openContext mode .key s).len.toNat + m.length = m.length := Nat.zero_add _
  have hlen := absorbAll_len_toNat (bs := m) (s := openContext mode .key s) (by rwa [hfresh])
  rw [hfresh] at hlen
  rcases Nat.lt_or_ge 64 m.length with hlong | hshort
  · rw [normalisedKey_long (by rwa [hlen]), keyBlock_long hlong, finishH_openContext hm]
  · rw [normalisedKey_short (by rwa [hlen]), keyBlock_short hshort, key_absorbAll_openContext hlt]

/-! The two hashes (R200, R206). -/

theorem bytesToWords_wordsToBytes_append (ws : List Word) (m : List Byte) :
    bytesToWords (wordsToBytes ws ++ m) = ws ++ bytesToWords m := by
  induction ws with
  | nil => rfl
  | cons w ws ih =>
    rw [wordsToBytes_cons, List.append_assoc, bytesToWords_wordBytes_append, ih, List.cons_append]

theorem blockOfList_toList (block : Vector Word 16) : blockOfList block.toList = block :=
  Vector.ext fun i hi => by
    rw [blockOfList, tabulate_getElem, List.getD_eq_getElem _ _ (by rwa [Vector.length_toList]),
      Vector.getElem_toList]

/-- The digest of a whole block and a message: the block is compressed first, and counts in the length. -/
theorem md5_block_append {block : Vector Word 16} {m : List Byte} (hm : 64 + m.length ≤ Config.lenMax) :
    md5 (wordsToBytes block.toList ++ m) = compressWords (blockCount m.length)
      (bytesToWords (m ++ padding (64 + m.length))) (compress iv block) := by
  have hlen : (wordsToBytes block.toList ++ m).length = 64 + m.length := by
    rw [List.length_append, wordsToBytes_length, Vector.length_toList]
  have hcount : blockCount (64 + m.length) = blockCount m.length + 1 := by unfold blockCount; omega
  have hsixteen : block.toList.length = 16 := Vector.length_toList
  rw [md5_eq_compressWords (by rwa [hlen]), hlen, hcount, List.append_assoc, bytesToWords_wordsToBytes_append,
    compressWords_succ, List.take_left' hsixteen, List.drop_left' hsixteen, blockOfList_toList]

/-- The data phase after KDONE, finished, is the inner hash (R204, R205). -/
theorem finishH_completeKdone {m : List Byte} (hm : 64 + m.length ≤ Config.lenMax) (s : State) :
    finishH (absorbAll m (completeKdone s)) =
      md5 (wordsToBytes (xorBlock (normalisedKey s) ipadWord).toList ++ m) := by
  have hstart : (completeKdone s).len.toNat = 64 := rfl
  have hlt : 64 + m.length + 72 < 2 ^ 32 := Nat.lt_of_le_of_lt (Nat.add_le_add_right hm 72) (by decide)
  have hk : (m ++ padding (64 + m.length)).length = 64 * blockCount m.length := by
    rw [List.length_append, padding_length, ← zeroCount_add, zeroCount, zeroCount]
    omega
  rw [md5_block_append hm, finishH_absorbAll (by rwa [hstart]) (by rw [hstart]) rfl (by rwa [hstart]), hstart,
    completeKdone_h]

/-- `hmac_outer()` is the hash of the opad block and the inner digest (R206). -/
theorem outerHash_eq_md5 (key : Vector Word 16) (inner : Quad) :
    outerHash key inner = md5 (wordsToBytes (xorBlock key opadWord).toList ++ inner.bytes) := by
  have hlen : inner.bytes.length = 16 := rfl
  have hcount : blockCount 16 = 0 + 1 := rfl
  have hpadding : bytesToWords (padding (64 + 16)) =
      [0x00000080, 0, 0, 0, 0, 0, 0, 0, 0, 0, 0x00000280, 0] := by decide
  rw [md5_block_append (by rw [hlen]; decide), hlen, Quad.bytes, bytesToWords_wordsToBytes_append, hpadding,
    hcount, compressWords_succ, blockOfList_take]
  rfl

/-! The command sequence (R207). -/

/-- The context that FINAL finds: the key loaded into a fresh context, KDONE, the data absorbed. -/
def hmacContext (key data : List Byte) (s : State) : State :=
  absorbAll data (completeKdone (absorbAll key (openContext .hmac .key s)))

@[simp] theorem hmacContext_mode (key data : List Byte) (s : State) :
    (hmacContext key data s).mode = .hmac := by
  rw [hmacContext, absorbAll_mode, completeKdone_mode, absorbAll_mode, openContext_mode]

@[simp] theorem hmacContext_phase (key data : List Byte) (s : State) :
    (hmacContext key data s).phase = .msg := by
  rw [hmacContext, absorbAll_phase, completeKdone_phase]

@[simp] theorem hmacContext_pend (key data : List Byte) (s : State) :
    (hmacContext key data s).pend = s.pend := by
  rw [hmacContext, absorbAll_pend, completeKdone_pend, absorbAll_pend, openContext_pend]

theorem hmacContext_key {key : List Byte} (hkey : key.length ≤ Config.lenMax) (data : List Byte)
    (s : State) : (hmacContext key data s).key = keyBlock key := by
  rw [hmacContext, absorbAll_key (s := completeKdone _) nofun, completeKdone_key, normalisedKey_openContext hkey]

/-- FINAL leaves in `H` the HMAC of the key and the data that the context has absorbed. -/
theorem finalDigest_hmacContext {key data : List Byte} (hkey : key.length ≤ Config.lenMax)
    (hdata : 64 + data.length ≤ Config.lenMax) (s : State) :
    finalDigest (hmacContext key data s) = hmac key data := by
  rw [finalDigest_hmac (hmacContext_mode key data s), hmacContext_key hkey, finish_h, hmacContext,
    finishH_completeKdone hdata, normalisedKey_openContext hkey, outerHash_eq_md5, hmac]

/-- KINIT, the key, KDONE and the data run without a trap. -/
theorem execAll_hmacContext {ks ds : List Instr} {s : State} (hp : s.pend = none) (hf : s.phase ≠ .fault)
    (hks : ∀ i ∈ ks, isPush i) (hds : ∀ i ∈ ds, isPush i)
    (hkey : (ks.flatMap pushedBytes).length ≤ 2 ^ 29 - 1)
    (hdata : (ds.flatMap pushedBytes).length ≤ 2 ^ 29 - 65) :
    execAll (.kinit :: ks ++ .kdone :: ds) s =
      .next (hmacContext (ks.flatMap pushedBytes) (ds.flatMap pushedBytes) s) := by
  have hfresh : (openContext .hmac .key s).len.toNat + (ks.flatMap pushedBytes).length =
    (ks.flatMap pushedBytes).length := Nat.zero_add _
  have hload := execAll_pushes (s := openContext .hmac .key s) hks hp (.inl rfl) (by rwa [hfresh])
  have hidle := (absorbAll_pend (ks.flatMap pushedBytes) (openContext .hmac .key s)).trans hp
  have hphase := absorbAll_phase (ks.flatMap pushedBytes) (openContext .hmac .key s)
  rw [List.cons_append, execAll_cons (exec_kinit hp hf), execAll_append hload,
    execAll_cons (exec_kdone hidle hphase)]
  refine execAll_pushes hds hidle (.inr rfl) ?_
  rw [completeKdone_len, (by decide : (64 : Word).toNat = 64)]
  omega

/-- Settles O39: `execAll_hmacContext` runs the sequence up to FINAL, which leaves the HMAC
(`finalDigest_hmacContext`). -/
theorem hmacSequenceComputesHmac : Obligations.HmacSequenceComputesHmac := by
  unfold Obligations.HmacSequenceComputesHmac
  intro ks ds s hp hf hks hds hkey hdata
  have hroom : 64 + (ds.flatMap pushedBytes).length ≤ 2 ^ 29 - 1 := by omega
  refine ⟨completeFinal (hmacContext (ks.flatMap pushedBytes) (ds.flatMap pushedBytes) s), ?_,
    finalDigest_hmacContext hkey hroom s, rfl, hmacContext_mode _ _ s, rfl, zeroBlock_eq_replicate,
    zeroBlock_eq_replicate⟩
  rw [execAll_append (execAll_hmacContext hp hf hks hds hkey hdata),
    execAll_cons (exec_final (by rwa [hmacContext_pend]) (hmacContext_phase _ _ s)), execAll]

end Sys2Proof.Machine
end

section
/-! SUPPORT. The output encoders (spec 44_encoders.md): EHEX, EB64 and ERDX as single operations that write `OUT`
and `OUTLEN` and nothing else, and the characters that each of them writes. -/

namespace Sys2Proof.Machine

open Sys2Proof.Claims

/-! Writing over the first entries of `OUT` (R221, R222). -/

theorem overlayList_getElem?_of_lt {α : Type} : ∀ {xs ys : List α} {j : Nat},
    j < xs.length → j < ys.length → (overlayList xs ys)[j]? = xs[j]?
  | [], _, _, hx, _ => absurd hx (Nat.not_lt_zero _)
  | _ :: _, [], _, _, hy => absurd hy (Nat.not_lt_zero _)
  | _ :: _, _ :: _, 0, _, _ => rfl
  | _ :: xs, _ :: ys, _ + 1, hx, hy =>
    overlayList_getElem?_of_lt (xs := xs) (ys := ys) (Nat.lt_of_succ_lt_succ hx) (Nat.lt_of_succ_lt_succ hy)

theorem overlayList_getElem?_of_ge {α : Type} : ∀ {xs ys : List α} {j : Nat},
    xs.length ≤ j → (overlayList xs ys)[j]? = ys[j]?
  | [], _, _, _ => rfl
  | _ :: _, [], _, _ => rfl
  | _ :: _, _ :: _, 0, h => absurd h (Nat.not_succ_le_zero _)
  | _ :: xs, _ :: ys, _ + 1, h => overlayList_getElem?_of_ge (xs := xs) (ys := ys) (Nat.le_of_succ_le_succ h)

theorem overlayList_overlayList {α : Type} :
    ∀ xs ys : List α, overlayList xs (overlayList xs ys) = overlayList xs ys
  | [], _ => rfl
  | _ :: _, [] => rfl
  | x :: xs, _ :: ys => congrArg (x :: ·) (overlayList_overlayList xs ys)

theorem overlay_overlay {α : Type} {n : Nat} (xs : List α) (v : Vector α n) :
    overlay xs (overlay xs v) = overlay xs v :=
  Vector.toList_inj.1 (overlayList_overlayList xs v.toList)

theorem storeOut_out_of_lt {cs : List Code} (s : State) {j : Nat} (h : j < cs.length) (hj : j < 128) :
    (storeOut cs s).out.toList[j]? = cs[j]? :=
  overlayList_getElem?_of_lt h (by rwa [Vector.length_toList])

theorem storeOut_out_of_ge {cs : List Code} (s : State) {j : Nat} (h : cs.length ≤ j) :
    (storeOut cs s).out.toList[j]? = s.out.toList[j]? :=
  overlayList_getElem?_of_ge h

theorem storeOut_frame {cs : List Code} {n : Nat} (h : cs.length = n) (s : State) :
    storeOut cs s = { s with out := (storeOut cs s).out, outlen := BitVec.ofNat 8 n } := by
  subst h
  rfl

theorem storeOut_storeOut (cs : List Code) (s : State) : storeOut cs (storeOut cs s) = storeOut cs s := by
  simp only [storeOut, overlay_overlay]

/-! The encoders as single operations (R221, R225, R232, R240). -/

/-- EHEX, EB64 or ERDX. -/
abbrev isEncoder (i : Instr) : Prop := i = .ehex ∨ i = .eb64 ∨ i = .erdx

theorem radixLegal_iff (r : Nat) : radixLegal r = true ↔ 2 ≤ r ∧ r ≤ 256 := by
  rw [radixLegal, Bool.and_eq_true, decide_eq_true_eq, decide_eq_true_eq]
  rfl

theorem legalNow_encoder {i : Instr} (he : isEncoder i) {s : State} (hi : s.phase = .idle) (hd : s.dvalid = true) :
    legalNow i s = true := by
  rcases he with rfl | rfl | rfl <;> exact (legalNow_iff _ s).2 ⟨hi, hd⟩

/-- An encoder with a digest, and for ERDX a legal radix, is its completion. -/
theorem exec_encoder {i : Instr} (he : isEncoder i) {s : State} (hp : s.pend = none)
    (hi : s.phase = .idle) (hd : s.dvalid = true)
    (hr : i = .erdx → 2 ≤ s.radix.toNat ∧ s.radix.toNat ≤ 256) : exec i s = .next (completion i s) := by
  have hl := legalNow_encoder he hi hd
  rcases he with rfl | rfl | rfl
  · exact exec_of_tests nofun hp hl rfl rfl
  · exact exec_of_tests nofun hp hl rfl rfl
  · exact exec_of_tests nofun hp hl rfl (congrArg not ((radixLegal_iff _).2 (hr rfl)))

theorem completion_encoder_frame {i : Instr} (he : isEncoder i) (s : State) :
    ∃ out outlen, completion i s = { s with out := out, outlen := outlen } := by
  rcases he with rfl | rfl | rfl <;> exact ⟨_, _, rfl⟩

/-- What an encoder writes does not depend on `OUT` and `OUTLEN`. -/
theorem completion_encoder_idempotent {i : Instr} (he : isEncoder i) (s : State) :
    completion i (completion i s) = completion i s := by
  rcases he with rfl | rfl | rfl <;> exact storeOut_storeOut _ s

/-- Settles O49, by `exec_encoder` before and after, and `completion_encoder_idempotent`. -/
theorem encodersAreRepeatable : Obligations.EncodersAreRepeatable := by
  unfold Obligations.EncodersAreRepeatable
  intro i s he hp hi hd hr
  obtain ⟨out, outlen, ht⟩ := completion_encoder_frame he s
  have hagain : exec i (completion i s) = .next (completion i (completion i s)) := by
    rw [ht]
    exact exec_encoder he hp hi hd hr
  refine ⟨completion i s, exec_encoder he hp hi hd hr, ?_, ?_⟩
  · rw [ht]
  · rw [hagain, completion_encoder_idempotent he]

theorem acceptance_erdx_of_illegal_radix {s : State} (hp : s.pend = none) (hi : s.phase = .idle)
    (hd : s.dvalid = true) (hr : s.radix.toNat < 2 ∨ 256 < s.radix.toNat) :
    acceptance .erdx s = some .cfgerr := by
  have hradix : radixLegal s.radix.toNat = false := by
    rw [Bool.eq_false_iff, Ne, radixLegal_iff]
    omega
  simp [acceptance, (busy_eq_false_iff s).2 hp, legalNow_encoder (.inr (.inr rfl)) hi hd, overflowsLen,
    refusesRadix, hradix]

/-- Settles O24, by `acceptance_erdx_of_illegal_radix`. -/
theorem illegalRadixTakesCfgerrTrap : Obligations.IllegalRadixTakesCfgerrTrap := by
  unfold Obligations.IllegalRadixTakesCfgerrTrap
  exact fun s hp hi hd hr => exec_trapped (acceptance_erdx_of_illegal_radix hp hi hd hr)

/-! Hexadecimal (R223 to R225). -/

theorem hexCodes_getElem? : ∀ (upper : Bool) (v : Nat), v < 16 →
    (hexCodes upper)[v]? = some (hexDigit upper v) := by
  decide

theorem toHex_cons (upper : Bool) (x : Byte) (bytes : List Byte) : toHex upper (x :: bytes) =
    hexDigit upper (x.toNat / 16) :: hexDigit upper (x.toNat % 16) :: toHex upper bytes := rfl

theorem toHex_getElem? (upper : Bool) {bytes : List Byte} {k : Nat} (h : k < bytes.length) :
    (toHex upper bytes)[2 * k]? = (hexCodes upper)[(bytes.getD k 0).toNat / 16]? ∧
      (toHex upper bytes)[2 * k + 1]? = (hexCodes upper)[(bytes.getD k 0).toNat % 16]? := by
  induction bytes generalizing k with
  | nil => exact absurd h (Nat.not_lt_zero _)
  | cons x bytes ih =>
    rw [toHex_cons]
    cases k with
    | zero =>
      have hhigh : x.toNat / 16 < 16 := by have := x.isLt; omega
      have hlow : x.toNat % 16 < 16 := Nat.mod_lt _ (by decide)
      exact ⟨(hexCodes_getElem? upper _ hhigh).symm, (hexCodes_getElem? upper _ hlow).symm⟩
    | succ k => exact ih (Nat.lt_of_succ_lt_succ h)

/-- Settles O44, by `exec_encoder` and `toHex_getElem?`. -/
theorem ehexWritesTheHexDigits : Obligations.EhexWritesTheHexDigits := by
  unfold Obligations.EhexWritesTheHexDigits
  intro s hp hi hd
  have hlen : (toHex s.hexUp s.h.bytes).length = 32 := toHex_length _ _
  refine ⟨completeEhex s, exec_encoder (.inl rfl) hp hi hd nofun, storeOut_frame hlen s, fun k hk => ?_,
    fun j hj => storeOut_out_of_ge s (hlen.le.trans hj)⟩
  rw [completeEhex, storeOut_out_of_lt s (by omega) (by omega), storeOut_out_of_lt s (by omega) (by omega)]
  exact toHex_getElem? s.hexUp hk

/-! Base64 (R230 to R232). -/

theorem b64Codes_getElem? : ∀ v, v < 64 → b64Codes[v]? = some (b64Digit v) := by
  decide

theorem b64Group_full (pad : Option Code) (x y z : Byte) {j : Nat} (hj : j < 4) (rest : List Code) :
    (b64Group pad 3 x y z ++ rest)[j]? =
      b64Codes[(x.toNat * 2 ^ 16 + y.toNat * 2 ^ 8 + z.toNat) / 2 ^ (6 * (3 - j)) % 64]? := by
  rw [b64Codes_getElem? _ (Nat.mod_lt _ (by decide))]
  have hcases : j = 0 ∨ j = 1 ∨ j = 2 ∨ j = 3 := by omega
  rcases hcases with rfl | rfl | rfl | rfl <;> rfl

/-- One byte left: its high six bits, its low two, and the pad in both other places. -/
theorem b64Group_one (pad : Option Code) (x : Byte) : b64Group pad 1 x 0 0 =
    b64Digit (x.toNat / 4) :: b64Digit (x.toNat % 4 * 16) :: (padString pad ++ padString pad) := by
  have hx := x.isLt
  have hhigh : x.toNat * 65536 / 2 ^ 18 % 64 = x.toNat / 4 := by omega
  have hlow : x.toNat * 65536 / 2 ^ 12 % 64 = x.toNat % 4 * 16 := by omega
  simp [b64Group, b64Char, ← hhigh, ← hlow]

/-- Each group of three bytes has its own four characters. -/
theorem toBase64_drop (pad : Option Code) {g : Nat} {bytes : List Byte} (h : 3 * g ≤ bytes.length) :
    (toBase64 pad bytes).drop (4 * g) = toBase64 pad (bytes.drop (3 * g)) := by
  induction g generalizing bytes with
  | zero => rfl
  | succ g ih => match bytes, h with
    | x :: y :: z :: rest, h => exact ih (by simp only [List.length_cons] at h; omega)

theorem toBase64_getElem? (pad : Option Code) {bytes : List Byte} {g j : Nat} (h : 3 * g + 2 < bytes.length)
    (hj : j < 4) : (toBase64 pad bytes)[4 * g + j]? =
      b64Codes[((bytes.getD (3 * g) 0).toNat * 2 ^ 16 + (bytes.getD (3 * g + 1) 0).toNat * 2 ^ 8 +
        (bytes.getD (3 * g + 2) 0).toNat) / 2 ^ (6 * (3 - j)) % 64]? := by
  rw [← List.getElem?_drop, toBase64_drop pad (by omega), List.drop_eq_getElem_cons (by omega),
    List.drop_eq_getElem_cons (by omega), List.drop_eq_getElem_cons h, toBase64, b64Group_full pad _ _ _ hj,
    List.getD_eq_getElem, List.getD_eq_getElem, List.getD_eq_getElem]

theorem toBase64_digest_tail (pad : Option Code) (q : Quad) : (toBase64 pad q.bytes).drop 20 =
    b64Digit (dg q 15 / 4) :: b64Digit (dg q 15 % 4 * 16) :: (padString pad ++ padString pad) :=
  (toBase64_drop pad (g := 5) (bytes := q.bytes) (by simp)).trans (b64Group_one pad _)

theorem dg_lt (q : Quad) (k : Nat) : dg q k < 256 := BitVec.isLt _

theorem pad_isSome (s : State) : s.pad.isSome = s.b64pad.getLsbD 16 := by
  change s.pad.isSome = s.padEnabled
  cases h : s.padEnabled <;> simp [State.pad, h]

theorem pad_of_enabled {s : State} (h : s.b64pad.getLsbD 16 = true) :
    s.pad = some (s.b64pad.extractLsb' 0 16) := if_pos h

/-- Settles O45, by `exec_encoder`, `toBase64_getElem?` for the whole groups and `toBase64_digest_tail` for the
last byte. -/
theorem eb64WritesTheBase64Digits : Obligations.Eb64WritesTheBase64Digits := by
  unfold Obligations.Eb64WritesTheBase64Digits
  intro s hp hi hd
  have hlen : (toBase64 s.pad s.h.bytes).length = if s.b64pad.getLsbD 16 then 24 else 22 := by
    rw [toBase64_digest_length, pad_isSome]
  have hmin : 22 ≤ (toBase64 s.pad s.h.bytes).length := by rw [hlen]; split <;> decide
  have hstored {j : Nat} (hj : j < 22) : (completeEb64 s).out.toList[j]? = (toBase64 s.pad s.h.bytes)[j]? :=
    storeOut_out_of_lt s (by omega) (by omega)
  have htail (j : Nat) : (toBase64 s.pad s.h.bytes)[20 + j]? = (b64Digit (dg s.h 15 / 4) ::
      b64Digit (dg s.h 15 % 4 * 16) :: (padString s.pad ++ padString s.pad))[j]? := by
    rw [← List.getElem?_drop, toBase64_digest_tail]
  have hlast := dg_lt s.h 15
  refine ⟨completeEb64 s, exec_encoder (.inr (.inl rfl)) hp hi hd nofun, ?frame, fun g j hg hj => ?group, ?high,
    ?low, fun hpad => ?padded, fun j hj => storeOut_out_of_ge s (hlen.le.trans hj)⟩
  case frame =>
    have houtlen : (if s.b64pad.getLsbD 16 then 24 else 22 : BitVec 8) =
        BitVec.ofNat 8 (if s.b64pad.getLsbD 16 then 24 else 22) := by split <;> rfl
    rw [houtlen]
    exact storeOut_frame hlen s
  case group =>
    rw [hstored (by omega)]
    exact toBase64_getElem? s.pad (by rw [quad_bytes_length]; omega) hj
  case high =>
    rw [hstored (by decide), b64Codes_getElem? _ (by omega)]
    exact htail 0
  case low =>
    rw [hstored (by decide), b64Codes_getElem? _ (by omega)]
    exact htail 1
  case padded =>
    rw [if_pos hpad] at hlen
    rw [completeEb64, storeOut_out_of_lt s (by omega) (by decide), storeOut_out_of_lt s (by omega) (by decide)]
    rw [pad_of_enabled hpad] at htail ⊢
    exact ⟨htail 2, htail 3⟩

end Sys2Proof.Machine
end

section
/-! SUPPORT. The radix encoder (spec 44_encoders.md R240 to R246): long division yields digits, the table of
output lengths is least, and ERDX writes the digits of the digest. -/

namespace Sys2Proof.Machine

open Sys2Proof.Claims

/-! Long division (R242, R246). -/

/-- The number whose digits to the base `2^16`, most significant first, are those of `n` and then the limbs
(R241). -/
def limbsValue (n : Nat) (ds : List Nat) : Nat := ds.foldl (fun a d => a * 65536 + d) n

theorem limbsValue_cons (n d : Nat) (ds : List Nat) : limbsValue n (d :: ds) = limbsValue (n * 65536 + d) ds := rfl

/-- Long division with a quotient `q` already collected keeps the dividend. -/
theorem longDivide_value (r : Nat) (ds : List Nat) (q x : Nat) :
    limbsValue q (longDivide r ds x).1 * r + (longDivide r ds x).2 = limbsValue (q * r + x) ds := by
  induction ds generalizing q x with
  | nil => rfl
  | cons d ds ih =>
    have hstep : (q * r + x) * 65536 + d =
        (q * 65536 + (x * 65536 + d) / r) * r + (x * 65536 + d) % r := by
      calc (q * r + x) * 65536 + d = q * 65536 * r + (x * 65536 + d) := by ring
        _ = q * 65536 * r + ((x * 65536 + d) / r * r + (x * 65536 + d) % r) := by rw [Nat.div_add_mod']
        _ = _ := by ring
    rw [limbsValue_cons, hstep, ← ih]
    rfl

theorem longDivide_remainder_lt {r x : Nat} (hx : x < r) (ds : List Nat) : (longDivide r ds x).2 < r := by
  induction ds generalizing x with
  | nil => exact hx
  | cons d ds ih => exact ih (Nat.mod_lt _ (Nat.zero_lt_of_lt hx))

theorem longDivide_divMod {r : Nat} (hr : 0 < r) (ds : List Nat) :
    limbsValue 0 (longDivide r ds 0).1 = limbsValue 0 ds / r ∧ (longDivide r ds 0).2 = limbsValue 0 ds % r := by
  have hvalue : (longDivide r ds 0).2 + r * limbsValue 0 (longDivide r ds 0).1 = limbsValue 0 ds := by
    simpa [Nat.add_comm, Nat.mul_comm r] using longDivide_value r ds 0 0
  obtain ⟨hquot, hrem⟩ := (Nat.div_mod_unique hr).2 ⟨hvalue, longDivide_remainder_lt hr ds⟩
  exact ⟨hquot.symm, hrem.symm⟩

/-- Leading zero limbs do not count. -/
theorem limbsValue_dropWhile (ds : List Nat) : limbsValue 0 (ds.dropWhile (· = 0)) = limbsValue 0 ds := by
  induction ds with
  | nil => rfl
  | cons d ds ih =>
    by_cases hd : d = 0
    · subst hd
      exact ih
    · rw [List.dropWhile_cons_of_neg (by simpa using hd)]

theorem remainders_getElem? {r : Nat} (hr : 0 < r) {n j : Nat} (hj : j < n) (ds : List Nat) :
    (remainders r n ds)[j]? = some (limbsValue 0 ds / r ^ j % r) := by
  induction n generalizing j ds with
  | zero => exact absurd hj (Nat.not_lt_zero _)
  | succ n ih =>
    obtain ⟨hquot, hrem⟩ := longDivide_divMod hr ds
    cases j with
    | zero => simp [remainders, hrem]
    | succ j =>
      rw [remainders, List.getElem?_cons_succ, ih (Nat.lt_of_succ_lt_succ hj), limbsValue_dropWhile, hquot,
        Nat.div_div_eq_div_mul, Nat.pow_succ']

/-- Settles O48, by `remainders_getElem?`. -/
theorem longDivisionYieldsDigits : Obligations.LongDivisionYieldsDigits := by
  unfold Obligations.LongDivisionYieldsDigits
  exact fun r n j ds hr hj => remainders_getElem? (Nat.zero_lt_of_lt hr) hj ds

/-! The output length (R243, R244). -/

/-- `len` is the least number of radix-`r` digits that hold 128 bits (R243). -/
def isLeastLength (r len : Nat) : Prop := 2 ^ 128 ≤ r ^ len ∧ ∀ m, m < len → r ^ m < 2 ^ 128

/-- The length of row `q` is enough for the least radix after row `p`, and one digit less is too short for the
last radix of `q`. -/
abbrev rowFitsAfter (p q : Nat × Nat) : Prop := 2 ^ 128 ≤ (p.1 + 1) ^ q.2 ∧ q.1 ^ (q.2 - 1) < 2 ^ 128

theorem isLeastLength_of_row {p q : Nat × Nat} (h : rowFitsAfter p q) {r : Nat} (hlow : p.1 < r)
    (hhigh : r ≤ q.1) : isLeastLength r q.2 := by
  refine ⟨h.1.trans (Nat.pow_le_pow_left hlow _), fun m hm => ?_⟩
  calc r ^ m ≤ r ^ (q.2 - 1) := Nat.pow_le_pow_right (Nat.zero_lt_of_lt hlow) (by omega)
    _ ≤ q.1 ^ (q.2 - 1) := Nat.pow_le_pow_left hhigh _
    _ < 2 ^ 128 := h.2

theorem isLeastLength_lookupLength {r : Nat} {p : Nat × Nat} {rows : List (Nat × Nat)}
    (h : List.IsChain rowFitsAfter (p :: rows)) (hlow : p.1 < r) (hhigh : ∃ q ∈ rows, r ≤ q.1) :
    isLeastLength r (lookupLength r rows) := by
  induction rows generalizing p with
  | nil => simp at hhigh
  | cons q rows ih =>
    obtain ⟨hfits, hrest⟩ := List.isChain_cons_cons.1 h
    by_cases hq : r ≤ q.1
    · simpa only [lookupLength, if_pos hq] using isLeastLength_of_row hfits hlow hq
    · simpa only [lookupLength, if_neg hq] using ih hrest (by omega) (by simpa [hq] using hhigh)

theorem isLeastLength_radixLength {r : Nat} (hlow : 2 ≤ r) (hhigh : r ≤ 256) :
    isLeastLength r (radixLength r) :=
  isLeastLength_lookupLength (p := (1, 0)) (by decide) hlow ⟨(256, 16), by decide, hhigh⟩

/-- Settles O47, by `isLeastLength_radixLength`: every row of R244 fits after the one before it. -/
theorem radixLengthIsLeast : Obligations.RadixLengthIsLeast := by
  unfold Obligations.RadixLengthIsLeast
  exact fun r hlow hhigh => isLeastLength_radixLength hlow hhigh

/-! ERDX (R240, R241, R245). -/

/-- The limbs of a byte sequence of even length have its value (R241). -/
theorem limbsValue_limbs (bytes : List Byte) (h : bytes.length % 2 = 0) (n : Nat) :
    limbsValue n (limbs bytes) = bytes.foldl (fun a x => a * 256 + x.toNat) n := by
  induction bytes using limbs.induct generalizing n with
  | case1 x y rest ih =>
    have hpair : n * 65536 + (x.toNat * 256 + y.toNat) = (n * 256 + x.toNat) * 256 + y.toNat := by ring
    rw [limbs, limbsValue_cons, hpair, List.foldl_cons, List.foldl_cons]
    exact ih (by simp only [List.length_cons] at h; omega) _
  | case2 x => exact absurd h (by simp)
  | case3 => rfl

theorem limbsValue_digest (q : Quad) : limbsValue 0 (limbs q.bytes) = digestNumber q :=
  limbsValue_limbs q.bytes (by simp) 0

theorem radixDigits_getElem? {r k : Nat} (hr : 0 < r) (hk : k < radixLength r) (bytes : List Byte) :
    (radixDigits r bytes)[k]? = some (limbsValue 0 (limbs bytes) / r ^ (radixLength r - 1 - k) % r) := by
  rw [radixDigits, List.getElem?_reverse (by rwa [remainders_length]), remainders_length,
    remainders_getElem? hr (by omega)]

theorem alphaAt_of_lt {n : Nat} (h : n < 256) (alpha : Vector Code 256) :
    alpha.toList[n]? = some (alphaAt alpha n) := by
  simp [alphaAt, Vector.get_eq_getElem, Fin.ofNat, Nat.mod_eq_of_lt h, h]

/-- Settles O46, by `exec_encoder`, `radixDigits_getElem?` and `isLeastLength_radixLength`. -/
theorem erdxWritesTheRadixDigits : Obligations.ErdxWritesTheRadixDigits := by
  unfold Obligations.ErdxWritesTheRadixDigits
  intro s hp hi hd hlow hhigh
  have hlen : ((radixDigits s.radix.toNat s.h.bytes).map (alphaAt s.alpha)).length =
      radixLength s.radix.toNat := by
    rw [List.length_map, radixDigits_length]
  have hmax := radixLength_le s.radix.toNat
  obtain ⟨henough, hleast⟩ := isLeastLength_radixLength hlow hhigh
  refine ⟨completeErdx s, radixLength s.radix.toNat,
    exec_encoder (.inr (.inr rfl)) hp hi hd fun _ => ⟨hlow, hhigh⟩, storeOut_frame hlen s, hmax, henough, hleast,
    fun k hk => ?_, fun j hj => storeOut_out_of_ge s (hlen.le.trans hj)⟩
  have hdigit := Nat.mod_lt (digestNumber s.h / s.radix.toNat ^ (radixLength s.radix.toNat - 1 - k))
    (Nat.zero_lt_of_lt hlow)
  rw [completeErdx, storeOut_out_of_lt s (by omega) (by omega), List.getElem?_map,
    radixDigits_getElem? (Nat.zero_lt_of_lt hlow) hk, limbsValue_digest, alphaAt_of_lt (by omega)]
  rfl

end Sys2Proof.Machine
end

section
/-! SUPPORT. The public API (spec 45_public_api.md): the host program of `hex` run to its end (R261), what an
encoder's output reads as, and the salted hashes as guarded HMACs (R263 to R265). -/

namespace Sys2Proof.Machine

open Sys2Proof.Claims

/-! The output string of an encoder (R42, R221). -/

theorem overlayList_take_length {α : Type} : ∀ {xs ys : List α}, xs.length ≤ ys.length →
    (overlayList xs ys).take xs.length = xs
  | [], _, _ => rfl
  | _ :: _, [], h => absurd h (Nat.not_succ_le_zero _)
  | x :: _, _ :: _, h => congrArg (x :: ·) (overlayList_take_length (Nat.le_of_succ_le_succ h))

/-- A string that fits into `OUT` is the visible output once it is stored. -/
theorem outputOf_storeOut {cs : List Code} (h : cs.length ≤ 128) (s : State) : outputOf (storeOut cs s) = cs := by
  have houtlen : (storeOut cs s).outlen.toNat = cs.length := by
    rw [storeOut_outlen, BitVec.toNat_ofNat]
    omega
  rw [outputOf, houtlen]
  exact overlayList_take_length (by rwa [Vector.length_toList])

theorem outputOf_completeEhex (s : State) : outputOf (completeEhex s) = toHex s.hexUp s.h.bytes :=
  outputOf_storeOut (by rw [toHex_length, quad_bytes_length]; decide) s

/-! HINIT, the pushes of a text's bytes, FINAL (R261). -/

/-- The state after HINIT, a message pushed byte by byte, and FINAL. -/
def digestState (bytes : List Byte) (s : State) : State :=
  completeFinal (absorbAll bytes (openContext .plain .msg s))

@[simp] theorem digestState_phase (bytes : List Byte) (s : State) : (digestState bytes s).phase = .idle := rfl

@[simp] theorem digestState_dvalid (bytes : List Byte) (s : State) : (digestState bytes s).dvalid = true := rfl

@[simp] theorem digestState_pend (bytes : List Byte) (s : State) : (digestState bytes s).pend = s.pend := by
  rw [digestState, completeFinal_pend, absorbAll_pend, openContext_pend]

@[simp] theorem digestState_hexUp (bytes : List Byte) (s : State) : (digestState bytes s).hexUp = s.hexUp := by
  rw [digestState, absorbAll_frame]
  rfl

theorem digestState_h {bytes : List Byte} (h : bytes.length ≤ Config.lenMax) (s : State) :
    (digestState bytes s).h = md5 bytes := by
  rw [digestState, completeFinal_h, finalDigest_plain (absorbAll_mode bytes _), finish_h, finishH_openContext h]

theorem execAll_digestInstrs {bytes : List Byte} {s : State} (hp : s.pend = none) (hf : s.phase ≠ .fault)
    (hlen : bytes.length ≤ Config.lenMax) : execAll (digestInstrs bytes) s = .next (digestState bytes s) := by
  have hfresh : (openContext .plain .msg s).len.toNat + bytes.length = bytes.length := Nat.zero_add _
  have hpushes := execAll_pushb (s := openContext .plain .msg s) bytes hp (.inr rfl) (by rwa [hfresh])
  rw [digestInstrs, List.cons_append, execAll_cons (exec_hinit hp hf), execAll_append hpushes,
    execAll_cons (exec_final (by rwa [absorbAll_pend]) (absorbAll_phase bytes _)), execAll, digestState]

theorem apiHex_of_bytes {text : List Code} {bytes : List Byte} (h : textToUtf8Bytes text = .ok bytes)
    (f : Format) : apiHex f text = .ok (toHex f.upper (md5 bytes).bytes) := by
  rw [apiHex, digestOfText, h]
  rfl

/-- Settles O59: `execAll_digestInstrs` runs the program up to EHEX, whose output string is the hex string of
the digest (`outputOf_completeEhex`), under the switch that the run has left alone (`digestState_hexUp`). -/
theorem hexProgramComputesApiHex : Obligations.HexProgramComputesApiHex := by
  unfold Obligations.HexProgramComputesApiHex
  intro text bytes s hp hf htext hlen
  have hehex : exec .ehex (digestState bytes s) = .next (completeEhex (digestState bytes s)) :=
    exec_encoder (.inl rfl) (by rwa [digestState_pend]) (digestState_phase bytes s)
      (digestState_dvalid bytes s) nofun
  have hprogram : Instr.hinit :: bytes.map Instr.pushb ++ [.final, .ehex] = digestInstrs bytes ++ [.ehex] :=
    (List.append_assoc (.hinit :: bytes.map Instr.pushb) [.final] [.ehex]).symm
  refine ⟨completeEhex (digestState bytes s), ?_, ?_⟩
  · rw [hprogram, execAll_append (execAll_digestInstrs hp hf hlen), execAll_cons hehex, execAll]
  · rw [apiHex_of_bytes htext, outputOf_completeEhex, digestState_hexUp, digestState_h hlen]

/-! The hashes that refuse empty arguments (R263 to R265). -/

theorem apiHash_of_ne_nil (f : Format) {p : List Code} (hp : p ≠ []) : apiHash f p = apiHex f p :=
  if_neg (by rwa [List.isEmpty_iff])

theorem apiSaltHash_of_ne_nil (f : Format) {p s : List Code} (hp : p ≠ []) (hs : s ≠ []) :
    apiSaltHash f p s = apiHmacHex f p s :=
  if_neg (by simp [hp, hs])

theorem apiSaltHash_of_empty (f : Format) {p s : List Code} (h : p = [] ∨ s = []) :
    apiSaltHash f p s = .error .invalidArgument :=
  if_pos (by simpa using h)

theorem apiFullHash_of_ne_nil (f : Format) {p s c : List Code} (hp : p ≠ []) (hs : s ≠ []) (hc : c ≠ []) :
    apiFullHash f p s c = (apiHmacHex f p s).bind fun inner => apiHmacHex f inner c :=
  if_neg (by simp [hp, hs, hc])

theorem apiFullHash_of_empty (f : Format) {p s c : List Code} (h : p = [] ∨ s = [] ∨ c = []) :
    apiFullHash f p s c = .error .invalidArgument :=
  if_pos (by simpa [or_assoc] using h)

/-- Settles O60: each function is its composition past its guard, and refuses at the guard. -/
theorem saltedHashesAreHmacs : Obligations.SaltedHashesAreHmacs := by
  unfold Obligations.SaltedHashesAreHmacs
  exact fun f p s c => ⟨apiSaltHash_of_ne_nil f, apiFullHash_of_ne_nil f, apiHash_of_ne_nil f, rfl,
    apiSaltHash_of_empty f, apiFullHash_of_empty f⟩

end Sys2Proof.Machine
end

section
/-! SUPPORT. The system commands (spec 46_system_commands.md): SRST with nothing to test, whether it runs or is
only issued; NOP as an instruction that every phase accepts. -/

namespace Sys2Proof.Machine

/-! SRST (R284, R49). -/

/-- R284: SRST takes effect within its write, however soon an engine step follows. -/
theorem deliver_srst (lat : Latency) (s : State) : deliver .srst lat s = .next (softReset s) := by
  cases lat with
  | atOnce => exact exec_srst s
  | later => exact congrArg Host.Outcome.next (issue_srst s)

/-- Settles O4: the word decodes to SRST at `CMD` (`step_write_port`), and SRST delivered is the soft reset. -/
theorem softResetKeepsOnlyAlpha : Obligations.SoftResetKeepsOnlyAlpha := by
  unfold Obligations.SoftResetKeepsOnlyAlpha
  intro s
  refine ⟨exec_srst s, fun rest lat hs => ?_⟩
  rw [step_write_port (p := .cmd) hs (decodeAt_portOf_encode .srst), deliver_srst]
  rfl

/-! NOP (R281). -/

/-- R99: NOP is legal in every phase, and no other test looks at it. -/
theorem acceptance_nop {s : State} (hp : s.pend = none) : acceptance .nop s = none :=
  (acceptance_none_iff (i := .nop) nofun).2 ⟨hp, rfl, rfl, rfl⟩

/-- Settles O26: NOP is accepted when nothing pends and completes without effect; otherwise the BUSY test comes
first. -/
theorem nopChangesNothing : Obligations.NopChangesNothing := by
  unfold Obligations.NopChangesNothing
  intro s
  refine ⟨fun hp => ⟨?exec, ?issue⟩, fun hb => ?busy⟩
  case exec => exact exec_eq_completion hp (acceptance_nop hp)
  case issue => exact issue_accepted nofun (acceptance_nop hp)
  case busy => exact exec_trapped (acceptance_of_busy nofun hb)

end Sys2Proof.Machine
end

section
/-! SUPPORT. Traps (spec 60_exceptions.md): what the entry captures, sets and destroys, what an accepted
instruction leaves in the trap record, and the return from a trap. -/

namespace Sys2Proof.Machine

open Sys2Proof.Claims

/-! The six causes (R301, R33). -/

theorem errBit_getLsbD (c : Cause) : ∀ j, j < 6 → c.errBit.getLsbD j = (j + 1 == c.code) := by
  cases c <;> decide

theorem code_lt (c : Cause) : c.code < 2 ^ 3 := by cases c <;> decide

/-- Settles O21, cause by cause. -/
theorem causeCodesAndErrBits : Obligations.CauseCodesAndErrBits := by
  unfold Obligations.CauseCodesAndErrBits
  exact ⟨rfl, rfl⟩

/-! What the trap entry captures (R35, R305). -/

theorem captureAddr_direction (off : Offset) (w : Bool) : (captureAddr off w).getLsbD 31 = w := by
  have hoff : (off.setWidth 32).getLsbD 31 = false := by
    rw [BitVec.getLsbD_setWidth, BitVec.getLsbD_of_ge off 31 (by decide), Bool.and_false]
  rw [captureAddr, BitVec.getLsbD_or, hoff, Bool.or_false]
  cases w <;> rfl

theorem captureAddr_offset (off : Offset) (w : Bool) : (captureAddr off w).extractLsb' 0 12 = off := by
  have hdir : (if w then 0x80000000 else 0 : Word).extractLsb' 0 12 = 0 := by cases w <;> rfl
  rw [captureAddr, BitVec.extractLsb'_or, hdir]
  apply BitVec.eq_of_getLsbD_eq
  intro j hj
  have hj32 : j < 32 := by omega
  simp [hj, hj32]

/-- The first trap after ERR was 0 is recorded (R306). -/
theorem raise_first_capture {s : State} (h : s.err = 0) (c : Cause) (off : Offset) (w : Bool) (d : Word) :
    (raise c off w d s).ecause = BitVec.ofNat 3 c.code ∧ (raise c off w d s).eaddr = captureAddr off w ∧
      (raise c off w d s).edata = if w then d else 0 :=
  ⟨if_pos h, if_pos h, if_pos h⟩

/-- A nested trap leaves the record of the first one (R306, R309). -/
theorem raise_nested_capture {s : State} (h : s.err ≠ 0) (c : Cause) (off : Offset) (w : Bool) (d : Word) :
    (raise c off w d s).ecause = s.ecause ∧ (raise c off w d s).eaddr = s.eaddr ∧
      (raise c off w d s).edata = s.edata :=
  ⟨if_neg h, if_neg h, if_neg h⟩

theorem raise_err_getLsbD (c : Cause) (off : Offset) (w : Bool) (d : Word) (s : State) {j : Nat} (hj : j < 6) :
    (raise c off w d s).err.getLsbD j = (s.err.getLsbD j || j + 1 == c.code) := by
  rw [raise_err, BitVec.getLsbD_or, errBit_getLsbD c j hj]

theorem zeroBlock_get (i : Fin 16) : zeroBlock.get i = 0 := tabulate_get _ i

/-- With `IEN.ERRIE` set every trap raises the interrupt (R310). -/
theorem raise_irq {s : State} (h : s.ien.getLsbD 1 = true) (c : Cause) (off : Offset) (w : Bool) (d : Word) :
    (raise c off w d s).irq = true :=
  (irq_iff _).2 (.inr ⟨h, errBit_or_ne_zero s.err c⟩)

/-- Settles O20: the record by `raise_first_capture` and `raise_nested_capture`, ERR bit by bit, and the other
fields as the entry sets or keeps them. -/
theorem trapEntryDestroysTheContext : Obligations.TrapEntryDestroysTheContext := by
  unfold Obligations.TrapEntryDestroysTheContext
  rintro c off isWrite data s _ rfl
  refine ⟨fun h => ?first, raise_nested_capture (c := c) (off := off) (w := isWrite) (d := data),
    fun j hj => raise_err_getLsbD c off isWrite data s hj, rfl, rfl, rfl, rfl, rfl, rfl, rfl,
    zeroBlock_get, zeroBlock_get, rfl, rfl, rfl, rfl, rfl, rfl, fun h => raise_irq h c off isWrite data⟩
  case first =>
    obtain ⟨hcause, haddr, hdata⟩ := raise_first_capture h c off isWrite data
    rw [hcause, haddr, BitVec.toNat_ofNat]
    exact ⟨Nat.mod_eq_of_lt (code_lt c), captureAddr_direction off isWrite, captureAddr_reserved off isWrite,
      captureAddr_offset off isWrite, hdata⟩

/-! An instruction whose tests all pass (R303). -/

theorem isPush_of_overflowsLen {i : Instr} {s : State} (h : overflowsLen i s = true) : isPush i := by
  cases i with
  | pushb b => exact .inl ⟨b, rfl⟩
  | dinw w => exact .inr ⟨w, rfl⟩
  | _ => cases h

theorem overflowsLen_eq_false {i : Instr} {s : State}
    (h : isPush i → s.len.toNat + pushCount i ≤ 2 ^ 29 - 1) : overflowsLen i s = false := by
  refine Bool.eq_false_iff.2 fun ho => ?_
  have hi := isPush_of_overflowsLen ho
  exact Nat.not_lt.2 (h hi) ((overflowsLen_iff hi s).1 ho)

theorem refusesRadix_eq_false {i : Instr} {s : State}
    (h : i = .erdx → 2 ≤ s.radix.toNat ∧ s.radix.toNat ≤ 256) : refusesRadix i s = false := by
  cases i with
  | erdx => exact congrArg not ((radixLegal_iff _).2 (h rfl))
  | _ => rfl

theorem absorbAll_err (bs : List Byte) (s : State) : (absorbAll bs s).err = s.err := by
  rw [absorbAll_frame]

/-- Of all completions only CLRF's touches ERR (R282), but for the soft reset. -/
theorem completion_err {i : Instr} (hi : i ≠ .srst) (s : State) :
    (completion i s).err = if i = .clrf then 0 else s.err := by
  cases i with
  | srst => exact absurd rfl hi
  | dinw w => exact absorbAll_err (wordBytes w) s
  | _ => rfl

/-- Only a trap enters FAULT (R306). -/
theorem completion_phase_fault {i : Instr} {s : State} (h : (completion i s).phase = .fault) :
    s.phase = .fault := by
  cases i with
  | nop | pushb _ | ehex | eb64 | erdx => exact h
  | dinw w => rwa [← absorbAll_phase (wordBytes w) s]
  | hinit | kinit | kdone | final | srst => cases h
  | clrf =>
    by_contra hf
    exact hf ((if_neg hf).symm.trans h)

theorem completion_pend {i : Instr} (hi : i ≠ .srst) (s : State) : (completion i s).pend = s.pend := by
  cases i with
  | srst => exact absurd rfl hi
  | dinw w => exact absorbAll_pend (wordBytes w) s
  | _ => rfl

/-- Settles O25: the tests pass, so the instruction is its completion (`exec_of_tests`), which sets no ERR bit
and does not enter FAULT. -/
theorem acceptedInstructionNeverTraps : Obligations.AcceptedInstructionNeverTraps := by
  unfold Obligations.AcceptedInstructionNeverTraps
  intro i s hi hp hlegal hroom hradix
  exact ⟨completion i s,
    exec_of_tests hi hp ((legalNow_iff i s).2 hlegal) (overflowsLen_eq_false hroom)
      (refusesRadix_eq_false hradix),
    completion_err hi s, completion_phase_fault, (completion_pend hi s).trans hp⟩

/-! The return from a trap (R308). -/

/-- R282: CLRF with nothing pending is accepted in every phase and is the return from a trap. -/
theorem exec_clrf {s : State} (hp : s.pend = none) : exec .clrf s = .next (clearFault s) :=
  exec_of_tests nofun hp rfl rfl rfl

/-- Settles O27, by `exec_clrf` and the fields of the two resets and of the trap entry. -/
theorem clrfReturnsFromTrap : Obligations.ClrfReturnsFromTrap := by
  unfold Obligations.ClrfReturnsFromTrap
  exact fun s => ⟨exec_clrf, softReset_phase s, hardReset_phase s, fun c off w d => raise_ien c off w d s⟩

end Sys2Proof.Machine
end

section
/-! SUPPORT. The resets and the contents of ALPHA (spec 70_reset_and_hazards.md): what the engine is after reset,
and which turns can change an alphabet entry. -/

namespace Sys2Proof.Machine

/-! The reset state and the reset input (R340, R341). -/

/-- Settles O1: the fields of the reset state, and `step_turn` for the host's first transaction. -/
theorem resetLeavesEngineIdle : Obligations.ResetLeavesEngineIdle := by
  unfold Obligations.ResetLeavesEngineIdle
  exact ⟨rfl, rfl, rfl, rfl, rfl, rfl, rfl, rfl, rfl, rfl, fun t rest => step_turn rfl⟩

theorem step_reset {s : State} {rest : List Turn} (h : s.agenda = .reset :: rest) :
    step s = .next (hardReset { s with agenda := rest }) := step_turn h

/-- Settles O3: the turn is `hardReset`, which takes every field but ALPHA from `State.reset`. -/
theorem resetInputGivesResetState : Obligations.ResetInputGivesResetState := by
  unfold Obligations.ResetInputGivesResetState
  exact fun s rest h => ⟨_, step_reset h, rfl⟩

/-! What leaves ALPHA alone (R342, R49). -/

theorem completion_alpha (i : Instr) (s : State) : (completion i s).alpha = s.alpha := by
  by_cases hi : i = .srst
  · rw [hi]
    exact softReset_alpha s
  · obtain ⟨-, -, -, -, halpha, -⟩ := (hostOwned_eq_iff s _).1 (completion_hostOwned hi s)
    exact halpha

theorem engineStep_alpha {s t : State} (h : engineStep s = .next t) : t.alpha = s.alpha := by
  cases hp : s.pend with
  | none =>
    cases (engineStep_idle hp).symm.trans h
    rfl
  | some op =>
    cases hi : pendingInstr op with
    | ok i =>
      cases (engineStep_pending hp hi).symm.trans h
      exact completion_alpha i s
    | error e => simp [engineStep, hp, hi] at h

theorem issue_alpha (i : Instr) (s : State) : (issue i s).alpha = s.alpha := by
  by_cases hi : i = .srst
  · rw [hi, issue_srst, softReset_alpha]
  · cases ha : acceptance i s with
    | none => rw [issue_accepted hi ha, markPending_alpha]
    | some c => rw [issue_trapped hi ha, raiseFor, raise_alpha]

/-- No instruction changes ALPHA, however its write is completed. -/
theorem deliver_alpha (i : Instr) (lat : Latency) (s : State) :
    ∃ t, deliver i lat s = .next t ∧ t.alpha = s.alpha := by
  cases lat with
  | later => exact ⟨_, rfl, issue_alpha i s⟩
  | atOnce =>
    rcases exec_cases i s with ⟨c, -, he⟩ | ⟨-, he⟩
    · exact ⟨_, he, rfl⟩
    · exact ⟨_, he, completion_alpha i (markPending i s)⟩

theorem busRead_alpha (off : Offset) (size : Size) (s : State) : (busRead off size s).alpha = s.alpha := by
  rcases busRead_cases off size s with h | h <;> rw [h]
  · rfl
  · rfl

/-! What changes an entry of ALPHA (R41). -/

/-- A configuration write changes no entry but that of the register written, which then holds the data. -/
theorem writeConfig_alpha_cases (r : Reg) (data : Word) (s : State) (i : Fin 256) :
    (writeConfig r data s).alpha.get i = s.alpha.get i ∨
    (r = .alpha i ∧ (writeConfig r data s).alpha.get i = data.extractLsb' 0 16) := by
  cases r with
  | alpha k =>
    by_cases hk : k = i
    · subst hk
      exact .inr ⟨rfl, by simp [writeConfig, Vector.get_eq_getElem]⟩
    · exact .inl (by simp [writeConfig, Vector.get_eq_getElem, Fin.val_ne_of_ne hk])
  | _ => exact .inl rfl

/-- A host's write leaves ALPHA alone, or it is a word write that stores the register at its offset. -/
theorem busWrite_alpha_cases {off : Offset} {size : Size} {data : Word} {lat : Latency} {s t : State}
    (h : busWrite off size data lat s = .next t) :
    t.alpha = s.alpha ∨ ∃ r : Reg, size = .word ∧ off = r.offset ∧ t.alpha = (writeConfig r data s).alpha := by
  cases href : accessRefused off size true with
  | true =>
    cases (busWrite_refused href data lat s).symm.trans h
    exact .inl rfl
  | false =>
    obtain ⟨hsize, r, hoff, hw⟩ := exists_reg_of_write_accepted href
    rw [hsize, hoff, busWrite_reg hw] at h
    rcases writeReg_cases hw data lat s with ⟨c, hr⟩ | ⟨p, i, -, -, hr⟩ | ⟨-, hr⟩ <;> rw [hr] at h
    · cases h
      exact .inl rfl
    · obtain ⟨u, hu, halpha⟩ := deliver_alpha i lat s
      rw [hu] at h
      cases h
      exact .inl halpha
    · cases h
      exact .inr ⟨r, hsize, hoff, rfl⟩

/-- Settles O51: a read and the engine step leave ALPHA alone, and a write that does not is the word write of
that entry (`busWrite_alpha_cases`, `writeConfig_alpha_cases`). -/
theorem alphaChangesOnlyByWriteOrReset : Obligations.AlphaChangesOnlyByWriteOrReset := by
  unfold Obligations.AlphaChangesOnlyByWriteOrReset
  intro s t i hstep hne
  have changed : t.alpha ≠ s.alpha := fun heq => hne (congrArg (Vector.get · i) heq)
  cases hs : s.agenda with
  | nil => exact absurd (engineStep_alpha ((step_no_turn hs).symm.trans hstep)) changed
  | cons turn rest =>
    rw [step_turn hs] at hstep
    cases turn with
    | reset => exact .inl ⟨rest, rfl⟩
    | engine => exact absurd (engineStep_alpha hstep) changed
    | read off size =>
      cases hstep
      exact absurd (busRead_alpha off size _) changed
    | write off size data lat =>
      rcases busWrite_alpha_cases hstep with heq | ⟨r, rfl, rfl, heq⟩
      · exact absurd heq changed
      · rw [heq] at hne ⊢
        obtain ⟨rfl, hdata⟩ := (writeConfig_alpha_cases r data _ i).resolve_left hne
        exact .inr ⟨data, lat, rest, rfl, hdata⟩

end Sys2Proof.Machine
end
